-- ==== Sys2Proof/Word.lean ====
section
/-! DEFINITION. The word types of the StackLang VM (00_scope.md R10, R12). -/

namespace Sys2Proof

/-- A stack word, and the program counter: 64 bits (R10, R12, R25). -/
abbrev Word := BitVec 64

/-- One byte: of a packed image, of character-form code, of an I/O stream (R10). -/
abbrev Byte := BitVec 8

/-- One opcode: 4 bits (R80). -/
abbrev Nibble := BitVec 4

/-- The document's "−1 (all bits set)" (R12). -/
def minusOne : Word := 0xFFFFFFFFFFFFFFFF#64

/-- `MIN`, the word of value `-2^63` (R12). -/
def minWord : Word := 0x8000000000000000#64

/-- `MAX`, the word of value `2^63 - 1` (R12). -/
def maxWord : Word := 0x7FFFFFFFFFFFFFFF#64

end Sys2Proof
end

