-- ==== Sys2Proof/Machine/Arith.lean ====
section
/-! DEFINITION. The readings of a word and the values the ALU computes (00_scope.md R12, R14; 40_alu.md; 44_shift.md). -/

namespace Sys2Proof.Machine

/-- `s64(v)`, the two's-complement value (R12). -/
def s64 (v : Word) : Int := v.toInt

/-- `u64(v)`, the unsigned value (R12). -/
def u64 (v : Word) : Nat := v.toNat

/-- `wrap64(n)`, the word whose unsigned value is `n mod 2^64` (R12). -/
def wrap64 (n : Int) : Word := BitVec.ofInt 64 n

/-- `zext_64` of a byte (R12). -/
def zext64 (b : Byte) : Word := b.setWidth 64

/-- `a[7:0]` (R174). -/
def lowByte (a : Word) : Byte := a.extractLsb' 0 8

/-- `a XOR b` (R131). -/
def xor64 (a b : Word) : Word := a ^^^ b

/-- `a OR b` (R132). -/
def or64 (a b : Word) : Word := a ||| b

/-- `a AND b` (R133). -/
def and64 (a b : Word) : Word := a &&& b

/-- `a +64 b` (R14, R134). -/
def add64 (a b : Word) : Word := wrap64 (s64 a + s64 b)

/-- `a -64 b` (R14, R135). -/
def sub64 (a b : Word) : Word := wrap64 (s64 a - s64 b)

/-- `a *64 b`: bits 63:0 of the product (R14, R136). -/
def mul64 (a b : Word) : Word := wrap64 (s64 a * s64 b)

/-- `/`: 0 for a zero divisor, else the quotient rounded toward zero, wrapped (R137). The rounding is the spec's
decision D6 (UNVERIFIED, log entry 13). -/
def div64 (a b : Word) : Word :=
  if s64 b = 0 then 0#64 else wrap64 ((s64 a).tdiv (s64 b))

/-- `a[62:0] ++ bit`: the left shift by one that puts `bit` into bit 0 (R180, R181). -/
def shiftIn (a : Word) (bit : BitVec 1) : Word := a.extractLsb' 0 63 ++ bit

/-- `(pc + u64(a)) mod 2^64` (R160). -/
def branchBase (pc a : Word) : Word := BitVec.ofNat 64 (u64 pc + u64 a)

/-- `(pc + 1) mod 2^64` (R27, R162). -/
def nextIndex (pc : Word) : Word := BitVec.ofNat 64 (u64 pc + 1)

end Sys2Proof.Machine
end

