-- ==== Sys2Proof/Syntax.lean ====
section
/-! DEFINITION. The instructions (30_encoding.md R80 to R83): sixteen, none with an operand field. -/

namespace Sys2Proof

/-- One constructor per row of the opcode table, in the alphabet's order (R82, R83). The names are R83's,
in lower case (`inp` for IN). No instruction has an operand field: every operand is implicit (R80). -/
inductive Instr where
  | pushm1  -- `!`
  | xor     -- `^`
  | or      -- `|`
  | and     -- `&`
  | add     -- `+`
  | sub     -- `-`
  | mul     -- `*`
  | div     -- `/`
  | sws     -- `$`
  | xch     -- `~`
  | dup     -- `=`
  | jmp     -- `@`
  | inp     -- `?`
  | out     -- `.`
  | shl0    -- `0`
  | shl1    -- `1`
  deriving DecidableEq, Repr

/-- The alphabet in its fixed order, by ASCII code: position `n` is opcode `n` (R82). The codes are the ASCII
chart's. PRESUMED: the spec gives them from general knowledge (log entry 10). -/
def alphabet : List Byte :=
  [0x21, 0x5E, 0x7C, 0x26, 0x2B, 0x2D, 0x2A, 0x2F, 0x24, 0x7E, 0x3D, 0x40, 0x3F, 0x2E, 0x30, 0x31]

end Sys2Proof
end

