-- ==== Sys2Proof/Config.lean ====
section
/-! DEFINITION. What a launch fixes, the records the machine shows, and the parameters the spec leaves OPEN
(00_scope.md R10; 60_exceptions.md R191, R205). -/

namespace Sys2Proof

/-- A stack number: 0 or 1 (R20), the type of the active-stack index `i` (R23). -/
inductive StackId where
  | s0
  | s1
  deriving DecidableEq, Repr

/-- How code memory is held: a packed image, two opcodes a byte, or one character a byte (R52, R53). -/
inductive CodeForm where
  | packed
  | characters
  deriving DecidableEq, Repr

/-- One answer of the host to an input request (R171). -/
inductive InAnswer where
  | byte (b : Byte)
  | eof
  | err
  deriving DecidableEq, Repr

/-- The fault kinds of the VM with the information each records (R191). -/
inductive VmFault where
  | stackUnderflow (pc : Word) (k : StackId)
  | outOfCode (pc : Word) (n : Word)
  | stackOverflow (pc : Word) (k : StackId)
  | internalError (pc : Word) (byte : Byte)
  deriving DecidableEq, Repr

/-- The numeric code of a fault kind (R191). -/
def VmFault.code : VmFault → Nat
  | .stackUnderflow _ _ => 1
  | .outOfCode _ _ => 2
  | .stackOverflow _ _ => 3
  | .internalError _ _ => 4

/-- The content of one trace record: `(i, S[0], S[1], pc, symbol of the opcode at pc)` (R205). -/
structure TraceRecord where
  active : StackId
  stack0 : List Word
  stack1 : List Word
  pc     : Word
  instr  : Instr
  deriving DecidableEq, Repr

/-- One item on the diagnostic sink: a trace record (R205) or the one line that names a fault (R193). -/
inductive Diag where
  | trace (r : TraceRecord)
  | failure (f : VmFault)
  deriving DecidableEq, Repr

/-- What the host fixes at launch beside the code (R10, R33, R220). `input` and `accepts` are the host's part in
the I/O of the run (R175). -/
structure LaunchParams where
  strict     : Bool := false
  traceEn    : Bool := false
  stackDepth : Option Nat := none
  input      : List InAnswer := []
  accepts    : Option Nat := none
  deriving DecidableEq, Repr

/-- FREE VALUE (log entry 11). `EXIT_FAULT` less one: the exit status of a fault is OPEN but for being
non-zero (R193, D9). -/
opaque Config.exitFaultPred : Nat

/-- `EXIT_FAULT`, the non-zero exit status of a fault (R10, R193). -/
def Config.exitFault : Nat := Config.exitFaultPred + 1

/-- FREE VALUE (log entry 12). `TRACE_FORMAT`, the encoding of a trace record, is OPEN (R10, R205, D14). -/
opaque Config.traceFormat : TraceRecord → List Byte

/-- FREE VALUE (log entry 12). The text of the diagnostic line of a fault is not part of the hardware (R193). -/
opaque Config.failureLine : VmFault → List Byte

end Sys2Proof
end

