-- ==== Sys2Proof/WellFormed.lean ====
section
/-! DEFINITION. What is checked before a run: instructions, resolved code, launch parameters. -/

namespace Sys2Proof

/-- Every instruction is well-formed: it has no field that could be out of range, and no encoding is reserved
(R80, R86). -/
def Instr.wellFormed (_ : Instr) : Bool := true

/-- Resolved code in character form: not empty (R221), each byte a member of the alphabet (R50). -/
def resolvedWellFormed (c : List Byte) : Bool :=
  !c.isEmpty && c.all fun b => alphabet.contains b

/-- A packed image: not empty (R221); every byte value is allowed (R89). -/
def imageWellFormed (img : List Byte) : Bool := !img.isEmpty

/-- A label name: bytes in `a`..`z` (R99); the empty name may be declared (R107). -/
def labelNameWellFormed (n : List Byte) : Bool :=
  n.all fun b => decide (0x61#8 ≤ b) && decide (b ≤ 0x7A#8)

/-- Launch parameters: a finite `STACK_DEPTH` is at least 1 (R129, D5). -/
def LaunchParams.wellFormed (p : LaunchParams) : Bool := p.stackDepth != some 0

end Sys2Proof
end

