-- ==== Sys2Proof/Decode.lean ====
section
/-! DEFINITION. The decoder (total on nibbles, rejecting characters outside the alphabet by name), the encoder,
the packed form (30_encoding.md R80 to R92). -/

namespace Sys2Proof

/-- The decoder: one nibble, one instruction (R82, R83). It refuses nothing (R86). -/
def decode (op : Nibble) : Instr :=
  match op with
  | 0b0000#4 => .pushm1
  | 0b0001#4 => .xor
  | 0b0010#4 => .or
  | 0b0011#4 => .and
  | 0b0100#4 => .add
  | 0b0101#4 => .sub
  | 0b0110#4 => .mul
  | 0b0111#4 => .div
  | 0b1000#4 => .sws
  | 0b1001#4 => .xch
  | 0b1010#4 => .dup
  | 0b1011#4 => .jmp
  | 0b1100#4 => .inp
  | 0b1101#4 => .out
  | 0b1110#4 => .shl0
  | _ => .shl1 -- 0b1111, the one value left (test_decode_words)

/-- The encoder, from the same map (R82, R83). -/
def encode : Instr → Nibble
  | .pushm1 => 0b0000#4
  | .xor    => 0b0001#4
  | .or     => 0b0010#4
  | .and    => 0b0011#4
  | .add    => 0b0100#4
  | .sub    => 0b0101#4
  | .mul    => 0b0110#4
  | .div    => 0b0111#4
  | .sws    => 0b1000#4
  | .xch    => 0b1001#4
  | .dup    => 0b1010#4
  | .jmp    => 0b1011#4
  | .inp    => 0b1100#4
  | .out    => 0b1101#4
  | .shl0   => 0b1110#4
  | .shl1   => 0b1111#4

/-- The symbol of an instruction, by ASCII code (R82). PRESUMED: the codes (log entry 10). -/
def symbol : Instr → Byte
  | .pushm1 => 0x21#8
  | .xor    => 0x5E#8
  | .or     => 0x7C#8
  | .and    => 0x26#8
  | .add    => 0x2B#8
  | .sub    => 0x2D#8
  | .mul    => 0x2A#8
  | .div    => 0x2F#8
  | .sws    => 0x24#8
  | .xch    => 0x7E#8
  | .dup    => 0x3D#8
  | .jmp    => 0x40#8
  | .inp    => 0x3F#8
  | .out    => 0x2E#8
  | .shl0   => 0x30#8
  | .shl1   => 0x31#8

/-- Why a byte of character-form code has no instruction (R87). -/
inductive DecodeError where
  | notInAlphabet (b : Byte)
  deriving DecidableEq, Repr

/-- Character-form decoding: a symbol stands for its index in the alphabet; any other byte has no opcode (R50, R87). -/
def decodeSymbol (b : Byte) : Except DecodeError Instr :=
  match b with
  | 0x21#8 => .ok .pushm1
  | 0x5E#8 => .ok .xor
  | 0x7C#8 => .ok .or
  | 0x26#8 => .ok .and
  | 0x2B#8 => .ok .add
  | 0x2D#8 => .ok .sub
  | 0x2A#8 => .ok .mul
  | 0x2F#8 => .ok .div
  | 0x24#8 => .ok .sws
  | 0x7E#8 => .ok .xch
  | 0x3D#8 => .ok .dup
  | 0x40#8 => .ok .jmp
  | 0x3F#8 => .ok .inp
  | 0x2E#8 => .ok .out
  | 0x30#8 => .ok .shl0
  | 0x31#8 => .ok .shl1
  | b => .error (.notInAlphabet b)

/-- The high nibble of a packed byte, `b[7:4]`: the even index (R52, R59). -/
def highNibble (b : Byte) : Nibble := b.extractLsb' 4 4

/-- The low nibble of a packed byte, `b[3:0]`: the odd index (R52, R59). -/
def lowNibble (b : Byte) : Nibble := b.extractLsb' 0 4

/-- The nibble of a packed byte that an index selects: even the high one, odd the low one (R52). -/
def nibbleAt (b : Byte) (index : Nat) : Nibble :=
  if index % 2 = 0 then highNibble b else lowNibble b

/-- A packed byte: `op[2k] ++ op[2k+1]` (R88). -/
def packByte (even odd : Nibble) : Byte := even ++ odd

/-- The packer: two opcodes a byte, the low nibble of a last odd byte 0 (R88, R90, R91). -/
def pack : List Instr → List Byte
  | [] => []
  | [i] => [packByte (encode i) 0b0000#4]
  | i :: j :: rest => packByte (encode i) (encode j) :: pack rest

/-- The unpacker: each byte gives two opcodes, high nibble first (R89). -/
def unpack : List Byte → List Instr
  | [] => []
  | b :: rest => decode (highNibble b) :: decode (lowNibble b) :: unpack rest

/-- Resolved code, in characters, as instructions; a byte outside the alphabet is refused by name (R50, R87). -/
def decodeResolved : List Byte → Except DecodeError (List Instr)
  | [] => .ok []
  | b :: rest =>
    match decodeSymbol b with
    | .error e => .error e
    | .ok i =>
      match decodeResolved rest with
      | .error e => .error e
      | .ok is => .ok (i :: is)

/-- The instruction of a table word: bits 3:0 of `w` are the opcode, laid out in the high nibble of the first
packed byte, as index 0 is (R59, R80). An instruction has 4 bits (R81), so no higher bit of `w` is part of it
(log entry 18). -/
def decodeTableWord (_nbits w : Nat) : Option Instr :=
  some (decode (nibbleAt (packByte (BitVec.ofNat 4 w) 0b0000#4) 0))

end Sys2Proof
end

