-- ==== Sys2Proof/Machine/State.lean ====
section
/-! DEFINITION. The state of the VM as plain data (10_state.md; INVENTORY.md lists it), the reasons a step can
stop, and the state at reset. -/

namespace Sys2Proof.Machine

/-- Code memory's bytes, as (address, byte) pairs with strictly rising addresses (`Memory.wf`). -/
abbrev Memory := List Host.Cell

/-- The run status (R33, R36). -/
inductive Status where
  | running
  | halted
  | faulted (f : VmFault)
  deriving DecidableEq, Repr

/-- An I/O transaction the host has not answered yet: an input request (R171), or an output byte that is offered
and not accepted (R172). -/
inductive IoRequest where
  | input
  | output (b : Byte)
  deriving DecidableEq, Repr

/-- Why a step stops with no next state. The VM's own faults are NOT here: they are next states whose `status` is
`faulted` (R193, log entry 1). -/
inductive Fault where
  /-- Raised by `step` of a machine that has halted or faulted: no later step exists (R36). Safe: the machine
  makes no step there either. -/
  | stopped
  /-- Raised by `step` where `pc` is at or past `L` while the VM runs: R26 says no step begins so, and the spec
  gives `Fetch` no meaning there (R52). No reachable state raises it. Safe. -/
  | pcOutsideCode
  /-- Raised by `step` where the code memory lists no byte at the address `Fetch` reads: a launch lists every byte
  (R220). No launched machine raises it. Safe. -/
  | codeByteAbsent
  deriving DecidableEq, Repr

/-- Why a launch or a step is refused. -/
inductive Refusal where
  /-- An instruction with no meaning yet, raised by an arm of `exec`. No arm of this model raises it. Safe. -/
  | notModelled (mnemonic : String)
  /-- Raised by a launch of empty code, and by `step` when no code is loaded: empty code has no run (R221). Safe. -/
  | emptyCode
  /-- Raised by a launch of code longer than `2^64 - 1` opcodes (R10). Safe. -/
  | codeTooLong
  /-- Raised by a launch with `STACK_DEPTH = 0`; a finite depth is at least 1 (D5). Safe. -/
  | stackDepthZero
  deriving DecidableEq, Repr

/-- The whole state of the machine. -/
structure State where
  /-- `S[0]`, bottom first: the top is the last element (R20). -/
  stack0 : List Word
  /-- `S[1]`, bottom first (R20). -/
  stack1 : List Word
  /-- `i`, the active-stack index (R23). -/
  active : StackId
  /-- `pc`, in opcode units (R25). -/
  pc : Word
  /-- `STRICT`: strict or lenient (R31). -/
  strict : Bool
  /-- `TRACE_EN` (R32). -/
  traceEn : Bool
  /-- `STACK_DEPTH`; `none` is unbounded (R10, R56). -/
  stackDepth : Option Nat
  /-- How the code is held (R52, R53). -/
  codeForm : CodeForm
  /-- `L`, the code length in opcodes (R33). -/
  codeLen : Word
  /-- Code memory: the bytes of the packed image or of the characters (R50, R51). -/
  code : Memory
  /-- `status` (R36). -/
  status : Status
  /-- The I/O transaction outstanding, if any (R37, R41). -/
  io : Option IoRequest
  /-- `INPUT`: the host's answers that no `?` has taken yet, first answer first (R10, R171). -/
  input : List InAnswer
  /-- How many more output bytes the host is ready to accept; `none` is no limit (R172, R175). -/
  accepts : Option Nat
  /-- The bytes accepted on the output port, in order (R172). -/
  output : List Byte
  /-- What went to the diagnostic sink, in order (R170, R193, R205). -/
  diag : List Diag
  deriving DecidableEq, Repr

/-- The state at reset (R41), with the launch parameters at their defaults and no code loaded (log entries 4 to 7). -/
def State.reset : State where
  stack0 := []
  stack1 := []
  active := .s0
  pc := 0#64
  strict := false
  traceEn := false
  stackDepth := none
  codeForm := .packed
  codeLen := 0#64
  code := []
  status := .running
  io := none
  input := []
  accepts := none
  output := []
  diag := []

end Sys2Proof.Machine
end

