-- ==== Sys2Proof/Machine/Flags.lean ====
section
/-! DEFINITION. The VM has no flags and no condition codes (10_state.md R34). These are the tests its rules make in
their place. -/

namespace Sys2Proof.Machine

/-- The test of `@`: the offset −1 halts (R160). -/
def isHaltOffset (a : Word) : Bool := a == minusOne

/-- The range check of the step cycle: an unsigned comparison with `L` (R29). -/
def pastCode (n codeLen : Word) : Bool := decide (codeLen ≤ n)

/-- The capacity check of `Push`: `STACK_DEPTH` is finite and the stack already holds that many words (R56). -/
def depthReached (stackDepth : Option Nat) (depth : Nat) : Bool := stackDepth == some depth

/-- Does the host accept an output byte now (R172)? -/
def hostAccepts (accepts : Option Nat) : Bool := accepts != some 0

end Sys2Proof.Machine
end

