-- ==== Sys2Proof/Machine/Memory.lean ====
section
/-! DEFINITION. Operations on code memory (20_memory.md R50, R51). Only a launch writes it: no instruction does (R58). -/

namespace Sys2Proof.Machine

/-- What an address that is not listed reads as: no value (DESIGN CHOICE, log entry 8). -/
def Memory.unlisted : Option Byte := none

/-- `MemRead(addr, 1)`: the byte at an address (R51). -/
def Memory.read : Memory → Nat → Option Byte
  | [], _ => Memory.unlisted
  | (a, b) :: rest, addr => if a = addr then some b else Memory.read rest addr

/-- Writes one byte, keeping the addresses strictly rising. -/
def Memory.write : Memory → Nat → Byte → Memory
  | [], addr, v => [(addr, v)]
  | (a, b) :: rest, addr, v =>
    if addr < a then (addr, v) :: (a, b) :: rest
    else if addr = a then (addr, v) :: rest
    else (a, b) :: Memory.write rest addr v

/-- The canonical form: addresses strictly rising. (No entry can equal what an unlisted address reads as, since
that is no value.) -/
def Memory.wf : Memory → Bool
  | [] => true
  | [_] => true
  | (a, _) :: (a', b') :: rest => decide (a < a') && Memory.wf ((a', b') :: rest)

/-- The bytes of a loaded image at the addresses from `base` on (R51, R220). -/
def Memory.load (base : Nat) : List Byte → Memory
  | [] => []
  | b :: rest => (base, b) :: Memory.load (base + 1) rest

end Sys2Proof.Machine
end

