-- ==== Sys2Proof/Machine/Ops.lean ====
section
/-! DEFINITION. The named operations over the state: stack primitives, stopping, ports, fetch, trace, the end of the
step cycle, launch, and what the host may do between steps. -/

namespace Sys2Proof.Machine

/-- What a primitive answers inside an instruction: a value with which the instruction goes on, or the state in
which a `raise` has ended it (R13: "a `raise` or `halt` ends the instruction at that point"). -/
inductive Result (α : Type) where
  | ok (a : α)
  | ended (s : State)

/-- Goes on with the value, or stays ended. -/
def Result.bind {α β : Type} : Result α → (α → Result β) → Result β
  | .ok a, f => f a
  | .ended s, _ => .ended s

/-- An instruction's outcome: either way there is a next state; a raised fault is in its `status` (log entry 1). -/
def Result.outcome : Result State → Host.Outcome State Fault Refusal
  | .ok s => .next s
  | .ended s => .next s

/-! ### Stacks -/

/-- `1 - i` (R150). -/
def flipStack : StackId → StackId
  | .s0 => .s1
  | .s1 => .s0

/-- `S[k]` (R20). -/
def State.stack (s : State) : StackId → List Word
  | .s0 => s.stack0
  | .s1 => s.stack1

/-- `S[k] <- l`. -/
def State.setStack (s : State) (k : StackId) (l : List Word) : State :=
  match k with
  | .s0 => { s with stack0 := l }
  | .s1 => { s with stack1 := l }

/-- `i <- k` (R150). -/
def State.setActive (s : State) (k : StackId) : State := { s with active := k }

/-- `pc <- t` (R25). -/
def State.setPc (s : State) (t : Word) : State := { s with pc := t }

/-! ### Stopping: taking a fault, and the clean halt -/

/-- `raise F(info)`: the ONE operation that takes a fault. `status` becomes `Faulted`, one line goes to the
diagnostic sink, nothing else changes: there is no trap entry and no return from one (R193, R202, R203). -/
def raise (f : VmFault) (s : State) : State :=
  { s with status := .faulted f, diag := s.diag ++ [.failure f] }

/-- `halt`: `status <- Halted`; `pc` keeps the index of the `@` (R192). -/
def halt (s : State) : State := { s with status := .halted }

/-! ### The stack primitives -/

/-- `Pop(k)` (R55): the top word; on an empty stack −1 in lenient mode, `StackUnderflow` in strict mode. -/
def pop (k : StackId) (s : State) : Result (Word × State) :=
  match (s.stack k).getLast? with
  | some v => .ok (v, s.setStack k (s.stack k).dropLast)
  | none => if s.strict then .ended (raise (.stackUnderflow s.pc k) s) else .ok (minusOne, s)

/-- `Push(k, v)` (R56): the new top, or `StackOverflow` on a stack that already holds `STACK_DEPTH` words. -/
def push (k : StackId) (v : Word) (s : State) : Result State :=
  if depthReached s.stackDepth (s.stack k).length then .ended (raise (.stackOverflow s.pc k) s)
  else .ok (s.setStack k (s.stack k ++ [v]))

/-! ### The ports -/

/-- The VM waits: the transaction is outstanding and nothing else changes (R171, R172, R206). -/
def State.await (s : State) (r : IoRequest) : State := { s with io := some r }

/-- The first answer is taken, and the transaction is over (R171). -/
def State.takeInput (s : State) (rest : List InAnswer) : State := { s with input := rest, io := none }

/-- The word `?` pushes for an answer: the byte zero-extended, or −1 for `EOF` and for `Err` (R173). -/
def answerWord : InAnswer → Word
  | .byte b => zext64 b
  | .eof => minusOne
  | .err => minusOne

/-- The host accepts the byte: it is the next one on the output sink, and the transaction is over (R172). -/
def State.acceptOutput (s : State) (b : Byte) : State :=
  { s with output := s.output ++ [b], accepts := s.accepts.map (· - 1), io := none }

/-- `OutWrite(b)` (R172): accepted, or offered and waiting. -/
def outWrite (b : Byte) (s : State) : State :=
  if hostAccepts s.accepts then s.acceptOutput b else s.await (.output b)

/-- The trace record of a step: `(i, S[0], S[1], pc, symbol)` (R205). -/
def State.traceRecord (s : State) (i : Instr) : TraceRecord :=
  { active := s.active, stack0 := s.stack0, stack1 := s.stack1, pc := s.pc, instr := i }

/-- `TraceOut` where `TRACE_EN = 1` (R27, R205). -/
def traceOut (i : Instr) (s : State) : State :=
  if s.traceEn then { s with diag := s.diag ++ [.trace (s.traceRecord i)] } else s

/-! ### Fetch -/

/-- What `Fetch(pc)` finds. -/
inductive FetchResult where
  /-- an opcode -/
  | op (i : Instr)
  /-- character-form code holds a byte outside the alphabet (R87) -/
  | badByte (b : Byte)
  /-- no byte is listed there -/
  | absent
  /-- `pc >= L` -/
  | outside
  deriving DecidableEq, Repr

/-- The address in code memory that holds the opcode at an index (R52). -/
def byteAddress (form : CodeForm) (index : Nat) : Nat :=
  match form with
  | .packed => index / 2
  | .characters => index

/-- The opcode at an index, read from the byte that holds it (R52, R87). -/
def opcodeIn (form : CodeForm) (index : Nat) (b : Byte) : FetchResult :=
  match form with
  | .packed => .op (decode (nibbleAt b index))
  | .characters =>
    match decodeSymbol b with
    | .ok i => .op i
    | .error (.notInAlphabet c) => .badByte c

/-- The opcode at code index `n` of code memory (R52). -/
def fetchAt (form : CodeForm) (code : Memory) (n : Nat) : FetchResult :=
  match Memory.read code (byteAddress form n) with
  | some b => opcodeIn form n b
  | none => .absent

/-- `Fetch(pc)` (R52), for `0 <= pc < L`. -/
def fetch (s : State) : FetchResult :=
  if pastCode s.pc s.codeLen then .outside else fetchAt s.codeForm s.code (u64 s.pc)

/-! ### The end of the step cycle -/

/-- The increment and the range check (R27, R29). `p` is the index of the instruction that executed: a fault
records it (R195). -/
def advance (p : Word) (s : State) : State :=
  if pastCode (nextIndex s.pc) s.codeLen then
    if s.strict then raise (.outOfCode p (nextIndex s.pc)) (s.setPc (nextIndex s.pc))
    else s.setPc 0#64
  else s.setPc (nextIndex s.pc)

/-- A step ends before the increment where the instruction halted or faulted (R28) or waits for the host (R206);
else it ends with the increment and the range check. -/
def cycleEnd (p : Word) (s : State) : State :=
  match s.status, s.io with
  | .running, none => advance p s
  | _, _ => s

/-- The end of the step cycle on an instruction's outcome. -/
def finish (p : Word) : Host.Outcome State Fault Refusal → Host.Outcome State Fault Refusal
  | .next s => .next (cycleEnd p s)
  | .fault f => .fault f
  | .refused r => .refused r

/-! ### Launch and the host -/

/-- Every piece of state at its reset value (R41), with the code and the parameters in place (R220). -/
def launchState (p : LaunchParams) (form : CodeForm) (codeLen : Nat) (bytes : List Byte) : State :=
  { State.reset with
    strict := p.strict, traceEn := p.traceEn, stackDepth := p.stackDepth, input := p.input, accepts := p.accepts,
    codeForm := form, codeLen := BitVec.ofNat 64 codeLen, code := Memory.load 0 bytes }

/-- A launch (R220) of code held in `form` with `codeLen` opcodes: refused for empty code (R221), for more than
`2^64 - 1` opcodes (R10), for a depth of 0 (D5). -/
def launch (p : LaunchParams) (form : CodeForm) (codeLen : Nat) (bytes : List Byte) : Except Refusal State :=
  if codeLen = 0 then .error .emptyCode
  else if 2 ^ 64 ≤ codeLen then .error .codeTooLong
  else if p.wellFormed = false then .error .stackDepthZero
  else .ok (launchState p form codeLen bytes)

/-- The `bytecode` mode: a packed image of `N` bytes, `L = 2N` (R53). -/
def launchPacked (p : LaunchParams) (img : List Byte) : Except Refusal State :=
  launch p .packed (2 * img.length) img

/-- The `run` mode: resolved code of `n` characters, `L = n` (R53). -/
def launchResolved (p : LaunchParams) (chars : List Byte) : Except Refusal State :=
  launch p .characters chars.length chars

/-- The host gives one more input answer, at any time between steps (R175). -/
def State.hostAnswer (s : State) (r : InAnswer) : State := { s with input := s.input ++ [r] }

/-- The host becomes ready to accept `n` more bytes (R175). -/
def State.hostAccept (s : State) (n : Nat) : State := { s with accepts := s.accepts.map (· + n) }

/-- The byte that holds index `index` after `op` is put there, the other nibble of a packed byte kept (R59). -/
def byteWithOpcode (form : CodeForm) (index : Nat) (op : Nibble) (old : Byte) : Byte :=
  match form with
  | .packed => if index % 2 = 0 then packByte op (lowNibble old) else packByte (highNibble old) op
  | .characters => symbol (decode op)

/-- The least legal `L` for which the index is inside the code: packed code has an even length (R53). -/
def lengthHolding (form : CodeForm) (index : Nat) : Word :=
  match form with
  | .packed => BitVec.ofNat 64 (2 * (index / 2) + 2)
  | .characters => BitVec.ofNat 64 (index + 1)

/-- Loads one opcode where the next fetch reads it, in a machine that is running with nothing outstanding. It
stands for the host's load of a program (R220, log entry 6). -/
def State.placeOpcode (s : State) (op : Nibble) : State :=
  { s with
    code := Memory.write s.code (byteAddress s.codeForm (u64 s.pc))
      (byteWithOpcode s.codeForm (u64 s.pc) op
        ((Memory.read s.code (byteAddress s.codeForm (u64 s.pc))).getD 0#8))
    codeLen := if pastCode s.pc s.codeLen then lengthHolding s.codeForm (u64 s.pc) else s.codeLen
    status := .running
    io := none }

end Sys2Proof.Machine
end

