-- ==== Sys2Proof/Machine/Operands.lean ====
section
/-! DEFINITION. The operand forms: every operand is implicit (30_encoding.md R80; 10_state.md R22). Each form is
written once and the meanings are one line over it. -/

namespace Sys2Proof.Machine

/-- The two-operand form: `b` is popped first and `a` second, one result is pushed (R85, R129). -/
def binary (f : Word → Word → Word) (s : State) : Result State :=
  (pop s.active s).bind fun b =>
    (pop s.active b.2).bind fun a =>
      push s.active (f a.1 b.1) a.2

/-- The one-operand form: the top is popped and its image pushed (R22: `0`, `1`). -/
def unary (f : Word → Word) (s : State) : Result State :=
  (pop s.active s).bind fun a => push s.active (f a.1) a.2

/-- The form that pops one word and pushes none (R22: `@`, `.`). -/
def consume (f : Word → State → State) (s : State) : Result State :=
  (pop s.active s).bind fun a => .ok (f a.1 a.2)

/-- The form of `=`: pop, then push twice (R152, D7). -/
def duplicate (s : State) : Result State :=
  (pop s.active s).bind fun x =>
    (push s.active x.1 x.2).bind fun s' => push s.active x.1 s'

/-- The form of `~`: pop `S[0]`, pop `S[1]`, push to `S[1]`, push to `S[0]` (R151, D8). -/
def exchange (s : State) : Result State :=
  (pop .s0 s).bind fun x =>
    (pop .s1 x.2).bind fun y =>
      (push .s1 x.1 y.2).bind fun s' => push .s0 y.1 s'

end Sys2Proof.Machine
end

