-- ==== Sys2Proof/Machine/Alu.lean ====
section
/-! DEFINITION. The meanings of opcodes 0 to 7 (40_alu.md R129 to R137). -/

namespace Sys2Proof.Machine

/-- `!` (R130). -/
def execPushm1 (s : State) : Host.Outcome State Fault Refusal := (push s.active minusOne s).outcome

/-- `^` (R131). -/
def execXor (s : State) : Host.Outcome State Fault Refusal := (binary xor64 s).outcome

/-- `|` (R132). -/
def execOr (s : State) : Host.Outcome State Fault Refusal := (binary or64 s).outcome

/-- `&` (R133). -/
def execAnd (s : State) : Host.Outcome State Fault Refusal := (binary and64 s).outcome

/-- `+` (R134). -/
def execAdd (s : State) : Host.Outcome State Fault Refusal := (binary add64 s).outcome

/-- `-` (R135). -/
def execSub (s : State) : Host.Outcome State Fault Refusal := (binary sub64 s).outcome

/-- `*` (R136). -/
def execMul (s : State) : Host.Outcome State Fault Refusal := (binary mul64 s).outcome

/-- `/` (R137). -/
def execDiv (s : State) : Host.Outcome State Fault Refusal := (binary div64 s).outcome

end Sys2Proof.Machine
end

