-- ==== Sys2Proof/Machine/Control.lean ====
section
/-! DEFINITION. The meaning of opcode 11 (42_control.md R160). -/

namespace Sys2Proof.Machine

/-- What `@` does with its offset: −1 halts, anything else is added to `pc` (R160). The increment and the range
check are the step cycle's (R27). -/
def jumpOrHalt (a : Word) (s : State) : State :=
  if isHaltOffset a then halt s else s.setPc (branchBase s.pc a)

/-- `@` (R160). -/
def execJmp (s : State) : Host.Outcome State Fault Refusal := (consume jumpOrHalt s).outcome

end Sys2Proof.Machine
end

