-- ==== Sys2Proof/Machine/Io.lean ====
section
/-! DEFINITION. The meanings of opcodes 12 and 13 (43_io.md R173, R174). -/

namespace Sys2Proof.Machine

/-- `?` (R173): the host's next answer is taken and its word pushed; with no answer yet, the VM waits (R171). -/
def execInp (s : State) : Host.Outcome State Fault Refusal :=
  match s.input with
  | [] => .next (s.await .input)
  | r :: rest => (push s.active (answerWord r) (s.takeInput rest)).outcome

/-- `.` (R174): the low 8 bits of the popped word go to the output port. -/
def execOut (s : State) : Host.Outcome State Fault Refusal :=
  (consume (fun a s' => outWrite (lowByte a) s') s).outcome

end Sys2Proof.Machine
end

