-- ==== Sys2Proof/Machine/Shift.lean ====
section
/-! DEFINITION. The meanings of opcodes 14 and 15 (44_shift.md R180, R181). -/

namespace Sys2Proof.Machine

/-- `0` (R180). -/
def execShl0 (s : State) : Host.Outcome State Fault Refusal := (unary (fun a => shiftIn a 0b0#1) s).outcome

/-- `1` (R181). -/
def execShl1 (s : State) : Host.Outcome State Fault Refusal := (unary (fun a => shiftIn a 0b1#1) s).outcome

end Sys2Proof.Machine
end

