-- ==== Sys2Proof/Machine/Stack.lean ====
section
/-! DEFINITION. The meanings of opcodes 8 to 10 (41_stack.md R150 to R152). -/

namespace Sys2Proof.Machine

/-- `$` (R150). -/
def execSws (s : State) : Host.Outcome State Fault Refusal := .next (s.setActive (flipStack s.active))

/-- `~` (R151). -/
def execXch (s : State) : Host.Outcome State Fault Refusal := (exchange s).outcome

/-- `=` (R152). -/
def execDup (s : State) : Host.Outcome State Fault Refusal := (duplicate s).outcome

end Sys2Proof.Machine
end

