-- ==== Sys2Proof/Machine/Dispatch.lean ====
section
/-! DEFINITION. `Execute(op)` of the step cycle (10_state.md R27): one arm per instruction. -/

namespace Sys2Proof.Machine

/-- `Execute(op)` (R27), each arm the rule of its instruction (R83). -/
def exec (i : Instr) (s : State) : Host.Outcome State Fault Refusal :=
  match i with
  | .pushm1 => Sys2Proof.Machine.execPushm1 s
  | .xor => Sys2Proof.Machine.execXor s
  | .or => Sys2Proof.Machine.execOr s
  | .and => Sys2Proof.Machine.execAnd s
  | .add => Sys2Proof.Machine.execAdd s
  | .sub => Sys2Proof.Machine.execSub s
  | .mul => Sys2Proof.Machine.execMul s
  | .div => Sys2Proof.Machine.execDiv s
  | .sws => Sys2Proof.Machine.execSws s
  | .xch => Sys2Proof.Machine.execXch s
  | .dup => Sys2Proof.Machine.execDup s
  | .jmp => Sys2Proof.Machine.execJmp s
  | .inp => Sys2Proof.Machine.execInp s
  | .out => Sys2Proof.Machine.execOut s
  | .shl0 => Sys2Proof.Machine.execShl0 s
  | .shl1 => Sys2Proof.Machine.execShl1 s

end Sys2Proof.Machine
end

