-- ==== Sys2Proof/Machine/Step.lean ====
section
/-! DEFINITION. One step of the VM (10_state.md R27; 60_exceptions.md R206). -/

namespace Sys2Proof.Machine

/-- The beginning of a step: fetch, trace, execute, end of the cycle (R27). A byte outside the alphabet is raised
by `Fetch`, before the trace (R87, R200, log entry 25). -/
def beginStep (s : State) : Host.Outcome State Fault Refusal :=
  if s.codeLen = 0#64 then .refused .emptyCode
  else
    match fetch s with
    | .op i => finish s.pc (exec i (traceOut i s))
    | .badByte b => .next (raise (.internalError s.pc b) s)
    | .absent => .fault .codeByteAbsent
    | .outside => .fault .pcOutsideCode

/-- One step. A stopped machine has none (R36). A machine that waits for the host asks again and takes up the
instruction where it waits (R206): with no answer the state stays as it is. -/
def step (s : State) : Host.Outcome State Fault Refusal :=
  match s.status with
  | .halted => .fault .stopped
  | .faulted _ => .fault .stopped
  | .running =>
    match s.io with
    | none => beginStep s
    | some .input => finish s.pc (exec .inp s)
    | some (.output b) => .next (cycleEnd s.pc (outWrite b s))

/-- `s` with the instruction whose opcode is bits 3:0 of `w` where the next step fetches it (log entry 6). -/
def State.withFetchWord (s : State) (_nbits w : Nat) : State := s.placeOpcode (BitVec.ofNat 4 w)

/-- A sequence of instructions executed one after the other, as `Execute` alone does, for as long as the machine
runs and waits for nothing: for statements about the push-constant literal (R115). -/
def execSeq : List Instr → State → Host.Outcome State Fault Refusal
  | [], s => .next s
  | i :: rest, s =>
    match exec i s with
    | .next s' =>
      match s'.status, s'.io with
      | .running, none => execSeq rest s'
      | _, _ => .next s'
    | .fault f => .fault f
    | .refused r => .refused r

end Sys2Proof.Machine
end

