-- ==== Sys2Proof/Machine/Tokenizer.lean ====
section
/-! DEFINITION. The toolchain's tokenizer (30_encoding.md R95 to R101). It runs before a launch and is no part of
the VM (R6). The spec's "macro" is called a literal here. -/

namespace Sys2Proof.Machine

/-- A token (R96). -/
inductive Token where
  /-- alphabet characters, in order -/
  | script (v : List Byte)
  /-- the body of a `[` … `]` -/
  | literal (body : List Byte)
  /-- a declared label's name -/
  | label (name : List Byte)
  deriving DecidableEq, Repr

/-- The tokenizer's four states, with what each has gathered (R96). A comment keeps the Script token it
interrupts: `#` emits nothing (R96, R97). -/
inductive LexMode where
  | script (cur : List Byte)
  | comment (cur : List Byte)
  | literal (body : List Byte)
  | label (name : List Byte)
  deriving DecidableEq, Repr

/-- The lexical errors (R213). -/
inductive LexError where
  /-- a byte >= 0x80, at a 1-based line and column (R101) -/
  | nonAscii (line col : Nat)
  /-- end of input inside a literal (R98) -/
  | unterminated
  deriving DecidableEq, Repr

/-- Is the byte one of the 16 alphabet characters (R95)? -/
def isSymbol (b : Byte) : Bool := alphabet.contains b

/-- Is the byte in `a`..`z` (R99)? -/
def isLower (b : Byte) : Bool := decide (0x61#8 ≤ b) && decide (b ≤ 0x7A#8)

/-- Is the byte in `0`..`9` (R111)? -/
def isDigit (b : Byte) : Bool := decide (0x30#8 ≤ b) && decide (b ≤ 0x39#8)

/-- One byte in Script (R96): the tokens it emits and the next state. -/
def lexScript (cur : List Byte) (b : Byte) : List Token × LexMode :=
  if isSymbol b then ([], .script (cur ++ [b]))
  else if b = 0x23#8 then ([], .comment cur)
  else if b = 0x5B#8 then ([.script cur], .literal [])
  else if b = 0x3A#8 then ([.script cur], .label [])
  else ([], .script cur)

/-- One byte in any state (R96 to R99). A byte that ends a label is handled in Script as though it came next. -/
def lexByte (m : LexMode) (b : Byte) : List Token × LexMode :=
  match m with
  | .script cur => lexScript cur b
  | .comment cur => if b = 0x0A#8 then ([], .script cur) else ([], .comment cur)
  | .literal body => if b = 0x5D#8 then ([.literal body], .script []) else ([], .literal (body ++ [b]))
  | .label name =>
    if isLower b then ([], .label (name ++ [b]))
    else (.label name :: (lexScript [] b).1, (lexScript [] b).2)

/-- End of input (R98, R99, R100): in a comment nothing more is emitted (log entry 20). -/
def lexEnd : LexMode → Except LexError (List Token)
  | .script cur => .ok [.script cur]
  | .comment _ => .ok []
  | .literal _ => .error .unterminated
  | .label name => .ok [.label name]

/-- The position after a byte: LF starts a line, 0x0D does not advance the column (R101, D25). -/
def nextPosition (pos : Nat × Nat) (b : Byte) : Nat × Nat :=
  if b = 0x0A#8 then (pos.1 + 1, 1) else if b = 0x0D#8 then pos else (pos.1, pos.2 + 1)

/-- The tokenizer from a state and a position on (R96, R101). -/
def tokenizeFrom (m : LexMode) (pos : Nat × Nat) : List Byte → Except LexError (List Token)
  | [] => lexEnd m
  | b :: rest =>
    if 0x80#8 ≤ b then .error (.nonAscii pos.1 pos.2)
    else
      match tokenizeFrom (lexByte m b).2 (nextPosition pos b) rest with
      | .ok ts => .ok ((lexByte m b).1 ++ ts)
      | .error e => .error e

/-- The tokenizer: it starts in Script at line 1, column 1 (R96, R101). -/
def tokenize (src : List Byte) : Except LexError (List Token) := tokenizeFrom (.script []) (1, 1) src

end Sys2Proof.Machine
end

