-- ==== Sys2Proof/Machine/Expander.lean ====
section
/-! DEFINITION. The toolchain's label table and expander (30_encoding.md R104 to R117). The VM neither reads nor
holds the table (R108, 90_conflicts.md C7). -/

namespace Sys2Proof.Machine

/-- The label-address lookup table: names with their offsets in opcodes (R104). -/
abbrev LabelTable := List (List Byte × Nat)

/-- Records a label; a second declaration overwrites the first (R106). -/
def LabelTable.record : LabelTable → List Byte → Nat → LabelTable
  | [], n, v => [(n, v)]
  | (m, w) :: rest, n, v => if m = n then (n, v) :: rest else (m, w) :: LabelTable.record rest n v

/-- Looks a label up (R108). -/
def LabelTable.find : LabelTable → List Byte → Option Nat
  | [], _ => none
  | (m, w) :: rest, n => if m = n then some w else LabelTable.find rest n

/-- How far a token moves the offset: every literal expands to exactly 65 opcodes (R105). -/
def tokenWidth : Token → Nat
  | .script v => v.length
  | .literal _ => 65
  | .label _ => 0

/-- Pass 1: the table, from a running offset on (R105). -/
def passOne (offset : Nat) (t : LabelTable) : List Token → LabelTable
  | [] => t
  | .label n :: rest => passOne offset (t.record n offset) rest
  | .script v :: rest => passOne (offset + tokenWidth (.script v)) t rest
  | .literal b :: rest => passOne (offset + tokenWidth (.literal b)) t rest

/-- The final label table of a token stream (R105, R106). -/
def labelsOf (ts : List Token) : LabelTable := passOne 0 [] ts

/-- The operators of a literal body (R111). -/
inductive Sign where
  | plus
  | minus
  deriving DecidableEq, Repr

/-- What is wrong with a literal body (R116). -/
inductive LiteralError where
  | empty
  | operatorWithoutTerm
  | consecutiveOperators
  | malformedTerm
  | undefinedLabel
  deriving DecidableEq, Repr

/-- Cuts a body at its operators: the bytes before the first, and each operator with the bytes after it (R111). -/
def splitTerms : List Byte → List Byte × List (Sign × List Byte)
  | [] => ([], [])
  | b :: rest =>
    if b = 0x2B#8 then ([], (.plus, (splitTerms rest).1) :: (splitTerms rest).2)
    else if b = 0x2D#8 then ([], (.minus, (splitTerms rest).1) :: (splitTerms rest).2)
    else (b :: (splitTerms rest).1, (splitTerms rest).2)

/-- The value of a run of digits. -/
def decimalValue (acc : Nat) : List Byte → Nat
  | [] => acc
  | d :: rest => decimalValue (acc * 10 + (d.toNat - 0x30)) rest

/-- A term (R111): a decimal integer in `0 .. 2^63 - 1` (R113, D20), or a label's offset as a signed 64-bit
value (R108). -/
def termValue (t : LabelTable) (term : List Byte) : Except LiteralError Word :=
  if term.all isDigit then
    if decimalValue 0 term < 2 ^ 63 then .ok (BitVec.ofNat 64 (decimalValue 0 term)) else .error .malformedTerm
  else if term.all isLower then
    match t.find term with
    | some v => .ok (BitVec.ofNat 64 v)
    | none => .error .undefinedLabel
  else .error .malformedTerm

/-- One operator applied, with 64-bit wrap (R113). -/
def applySign (acc : Word) (o : Sign) (v : Word) : Word :=
  match o with
  | .plus => add64 acc v
  | .minus => sub64 acc v

/-- The rest of a body, left to right (R113). A missing last term is an operator without a term; a missing term
before another operator is two operators in a row (R116). -/
def evalRest (t : LabelTable) (acc : Word) : List (Sign × List Byte) → Except LiteralError Word
  | [] => .ok acc
  | (_, []) :: [] => .error .operatorWithoutTerm
  | (_, []) :: _ :: _ => .error .consecutiveOperators
  | (o, b :: bs) :: rest =>
    match termValue t (b :: bs) with
    | .ok v => evalRest t (applySign acc o v) rest
    | .error e => .error e

/-- The value of a literal body (R111 to R113): a body that begins with an operator is taken as if a `0` stood
before it (R112). -/
def evalBody (t : LabelTable) (body : List Byte) : Except LiteralError Word :=
  if body.isEmpty then .error .empty
  else
    match splitTerms body with
    | ([], rest) => evalRest t 0#64 rest
    | (b :: bs, rest) =>
      match termValue t (b :: bs) with
      | .ok v => evalRest t v rest
      | .error e => .error e

/-- One bit of a literal as a shift instruction: `1` or `0` (R114). -/
def bitInstr (b : Bool) : Instr := if b then .shl1 else .shl0

/-- `Expand(v)` as instructions: `!`, then the 64 bits of `v`, most significant first (R114). -/
def expandInstrs (v : Word) : List Instr :=
  .pushm1 :: (List.range 64).map fun j => bitInstr (v.getLsbD (63 - j))

/-- `Expand(v)` as characters (R114). -/
def expand (v : Word) : List Byte := (expandInstrs v).map symbol

/-- Why a source produces no code (R213); a literal error is reported with its body (R116). -/
inductive BuildError where
  | lexical (e : LexError)
  | literal (body : List Byte) (e : LiteralError)
  deriving DecidableEq, Repr

/-- Pass 2: the resolved code (R110). -/
def passTwo (t : LabelTable) : List Token → Except BuildError (List Byte)
  | [] => .ok []
  | .script v :: rest =>
    match passTwo t rest with
    | .ok c => .ok (v ++ c)
    | .error e => .error e
  | .label _ :: rest => passTwo t rest
  | .literal b :: rest =>
    match evalBody t b with
    | .error e => .error (.literal b e)
    | .ok v =>
      match passTwo t rest with
      | .ok c => .ok (expand v ++ c)
      | .error e => .error e

/-- Source text to resolved code: tokenize, then the two passes (R95 to R117). -/
def assemble (src : List Byte) : Except BuildError (List Byte) :=
  match tokenize src with
  | .error e => .error (.lexical e)
  | .ok ts => passTwo (labelsOf ts) ts

/-- The `run` mode from source text: a source with an error launches nothing (R213). -/
def launchSource (p : LaunchParams) (src : List Byte) : Except BuildError (Except Refusal State) :=
  match assemble src with
  | .error e => .error e
  | .ok c => .ok (launchResolved p c)

end Sys2Proof.Machine
end

