-- ==== Sys2Proof/Safety.lean ====
section
/-! DEFINITION. What statements about whole runs are said in: the invariant of a launched machine, what the host
sees, and the state with the trace left out. -/

namespace Sys2Proof.Machine

/-- How many bytes of code memory hold `L` opcodes (R53). -/
def codeBytes (form : CodeForm) (codeLen : Nat) : Nat :=
  match form with
  | .packed => codeLen / 2
  | .characters => codeLen

/-- Code memory is as a launch leaves it (R50, R51, R53): canonical, a byte at every address of the image and at no
other, and an even `L` where the code is packed. -/
structure State.CodeLoaded (s : State) : Prop where
  canonical : Memory.wf s.code = true
  exact : ∀ a : Nat, (Memory.read s.code a).isSome = true ↔ a < codeBytes s.codeForm s.codeLen.toNat
  evenPacked : s.codeForm = .packed → s.codeLen.toNat % 2 = 0

/-- Both stacks are within a capacity of at least 1 (R56, R129, D5). -/
def State.DepthOk (s : State) : Prop :=
  ∀ d, s.stackDepth = some d → 1 ≤ d ∧ s.stack0.length ≤ d ∧ s.stack1.length ≤ d

/-- The instruction an outstanding transaction belongs to: `?` for an input request, `.` for an offered byte
(R206). -/
def IoRequest.instr : IoRequest → Instr
  | .input => .inp
  | .output _ => .out

/-- The invariant of a machine: its code is loaded, its stacks are within their capacity, `pc` is inside the code
while it runs (R26), and a wait is a wait of the instruction at `pc`. -/
structure State.Inv (s : State) : Prop where
  code : s.CodeLoaded
  depth : s.DepthOk
  pcInCode : s.status = .running → s.codeLen ≠ 0#64 → s.pc < s.codeLen
  wait : ∀ r, s.io = some r → s.status = .running ∧ s.codeLen ≠ 0#64 ∧ fetch s = .op r.instr

/-- Character-form code holds only alphabet bytes, as the front end emits it (R87, R207). Packed code always does
(R86). -/
def State.CodeInAlphabet (s : State) : Prop :=
  s.codeForm = .characters → ∀ a b, Memory.read s.code a = some b → alphabet.contains b = true

/-- The exit status of a run: 0 for a halt, `EXIT_FAULT` for a fault, none while it runs (R192, R193, R198). -/
def exitStatus : Status → Option Nat
  | .running => none
  | .halted => some 0
  | .faulted _ => some Config.exitFault

/-- The bytes of one item on the diagnostic sink, in the OPEN formats (R193, R205). -/
def diagBytes : Diag → List Byte
  | .trace r => Config.traceFormat r
  | .failure f => Config.failureLine f

/-- What the host sees (R198): the status and the exit status, the output bytes, the diagnostic sink. -/
structure HostView where
  status : Status
  exit   : Option Nat
  output : List Byte
  diag   : List Byte
  deriving DecidableEq, Repr

/-- The host's view of a state (R198). -/
def State.view (s : State) : HostView :=
  { status := s.status, exit := exitStatus s.status, output := s.output, diag := s.diag.flatMap diagBytes }

/-- Is this item a trace record? -/
def isTrace : Diag → Bool
  | .trace _ => true
  | .failure _ => false

/-- The state with tracing off and no trace record on the diagnostic sink. -/
def State.noTrace (s : State) : State :=
  { s with traceEn := false, diag := s.diag.filter fun d => !isTrace d }

/-- The state in lenient mode. -/
def State.lenient (s : State) : State := { s with strict := false }

/-- The two faults that only strict mode has (R31, R191). -/
def Status.isStrictFault : Status → Bool
  | .faulted (.stackUnderflow _ _) => true
  | .faulted (.outOfCode _ _) => true
  | _ => false

end Sys2Proof.Machine
end

