-- ==== Sys2Proof/Certificates/Slice0/Obligations.lean ====
section
/-! DEFINITION. The statements for the provers, from the spec's numbered rules. A VM fault is a next state whose
`status` is `faulted` (log entry 1), so `exec i s = .next t` covers it. -/

namespace Sys2Proof.Rules

open Sys2Proof.Machine

/-- The two-operand rule (R85, R129) for an instruction that pushes `op a b`, `b` the top and `a` the word below:
two words, one word, no word in lenient mode; `StackUnderflow` in strict mode with fewer than two. The equations
give the whole next state, so they are also the frame of these forms. -/
def TwoOperand (i : Instr) (op : Word → Word → Word) : Prop :=
  ∀ s : State, s.DepthOk →
    (∀ l a b, s.stack s.active = l ++ [a] ++ [b] → exec i s = .next (s.setStack s.active (l ++ [op a b]))) ∧
    (∀ b, s.strict = false → s.stack s.active = [b] →
      exec i s = .next (s.setStack s.active [op (BitVec.allOnes 64) b])) ∧
    (s.strict = false → s.stack s.active = [] →
      exec i s = .next (s.setStack s.active [op (BitVec.allOnes 64) (BitVec.allOnes 64)])) ∧
    (s.strict = true → (s.stack s.active).length < 2 →
      ∃ t, exec i s = .next t ∧ t.status = .faulted (.stackUnderflow s.pc s.active))

/-- The one-operand rule for an instruction that replaces the top `a` by `op a` (R180, R181). -/
def OneOperand (i : Instr) (op : Word → Word) : Prop :=
  ∀ s : State, s.DepthOk →
    (∀ l a, s.stack s.active = l ++ [a] → exec i s = .next (s.setStack s.active (l ++ [op a]))) ∧
    (s.strict = false → s.stack s.active = [] →
      exec i s = .next (s.setStack s.active [op (BitVec.allOnes 64)])) ∧
    (s.strict = true → s.stack s.active = [] →
      ∃ t, exec i s = .next t ∧ t.status = .faulted (.stackUnderflow s.pc s.active))

/-- The instructions that work on the active stack alone. -/
def activeStackInstrs : List Instr :=
  [.pushm1, .xor, .or, .and, .add, .sub, .mul, .div, .dup, .shl0, .shl1]

/-- The configuration and every byte of code memory are as before (R33, R58). -/
def SameCode (s t : State) : Prop :=
  t.strict = s.strict ∧ t.traceEn = s.traceEn ∧ t.stackDepth = s.stackDepth ∧ t.codeForm = s.codeForm ∧
    t.codeLen = s.codeLen ∧ ∀ a, Memory.read t.code a = Memory.read s.code a

/-- The four fields of the I/O ports are as before. -/
def SamePorts (s t : State) : Prop :=
  t.io = s.io ∧ t.input = s.input ∧ t.accepts = s.accepts ∧ t.output = s.output

/-- The status and the diagnostic sink are as before, or a fault was raised: its status and its one line (R193). -/
def KeptOrRaised (s t : State) : Prop :=
  (t.status = s.status ∧ t.diag = s.diag) ∨
    ∃ f, t.status = .faulted f ∧ t.diag = s.diag ++ [.failure f]

/-- Every field but the code is as a launch with these parameters leaves it (R41, R220). -/
def LaunchedWith (p : LaunchParams) (s : State) : Prop :=
  (s.stack0 = [] ∧ s.stack1 = [] ∧ s.active = .s0 ∧ s.pc = 0#64 ∧ s.status = .running ∧ s.io = none) ∧
    (s.strict = p.strict ∧ s.traceEn = p.traceEn ∧ s.stackDepth = p.stackDepth ∧ s.input = p.input ∧
      s.accepts = p.accepts) ∧
    s.output = [] ∧ s.diag = []

/-- Adds up how far tokens move the offset. -/
def totalWidth (ts : List Token) : Nat := (ts.map tokenWidth).sum

end Sys2Proof.Rules

open Sys2Proof Sys2Proof.Machine Sys2Proof.Rules

/-! ### Encoding -/

/-- R82, R83, R86: decoding an encoded instruction gives it back, and every nibble is the encoding of what it
decodes to; the table's word of an instruction decodes to it. -/
def Obligations.DecodeEncodeAgree : Prop :=
  (∀ i : Instr, decode (encode i) = i) ∧ (∀ op : Nibble, encode (decode op) = op) ∧
    (∀ (i : Instr) (nbits : Nat), decodeTableWord nbits (encode i).toNat = some i)

/-- R82: words written out from the opcode map, one of each family, as nibbles and in a packed byte. -/
def Obligations.SampleOpcodesDecode : Prop :=
  decode 0b0000#4 = .pushm1 ∧ decode 0b0111#4 = .div ∧ decode 0b1001#4 = .xch ∧ decode 0b1011#4 = .jmp ∧
    decode 0b1100#4 = .inp ∧ decode 0b1101#4 = .out ∧ decode 0b1110#4 = .shl0 ∧
    unpack [0xB0#8, 0x0D#8, 0xFF#8] = [.jmp, .pushm1, .pushm1, .out, .shl1, .shl1]

/-- R92: packing and unpacking invert each other, on even code and on every byte string. -/
def Obligations.PackUnpackInverse : Prop :=
  (∀ c : List Instr, c.length % 2 = 0 → unpack (pack c) = c) ∧ (∀ b : List Byte, pack (unpack b) = b)

/-- R91: a code of odd length, packed, comes back with one more opcode, `!`, at its end. -/
def Obligations.PackOddAppendsPush : Prop :=
  ∀ c : List Instr, c.length % 2 = 1 →
    unpack (pack c) = c ++ [.pushm1] ∧ (pack c).length = (c.length + 1) / 2 ∧
      ∃ b, (pack c).getLast? = some b ∧ b.extractLsb' 0 4 = 0#4

/-- R52, R53, R89: in a machine launched from a packed image of `N` bytes, `L = 2N` and the fetch at every index is
the unpacked opcode. -/
def Obligations.FetchOfImageIsUnpack : Prop :=
  ∀ (p : LaunchParams) (img : List Byte) (s : State), launchPacked p img = .ok s →
    s.codeLen.toNat = 2 * img.length ∧
      ∀ n i, (unpack img)[n]? = some i → fetch (s.setPc (BitVec.ofNat 64 n)) = .op i

/-- R52, R53, R87: in a machine launched from `n` characters, `L = n`; the fetch of a symbol is its instruction, and
the fetch of a byte outside the alphabet finds no opcode. -/
def Obligations.FetchOfCharacters : Prop :=
  ∀ (p : LaunchParams) (chars : List Byte) (s : State), launchResolved p chars = .ok s →
    s.codeLen.toNat = chars.length ∧
      ∀ n b, chars[n]? = some b →
        (∀ i, b = symbol i → fetch (s.setPc (BitVec.ofNat 64 n)) = .op i) ∧
        (b ∉ alphabet → fetch (s.setPc (BitVec.ofNat 64 n)) = .badByte b)

/-! ### The ALU family -/

/-- R130: `!` pushes the all-ones word in either mode, on any stack that is not full; on a full one it raises
`StackOverflow`. -/
def Obligations.PushMinusOne : Prop :=
  decode 0b0000#4 = .pushm1 ∧
    ∀ s : State,
      (s.stackDepth ≠ some (s.stack s.active).length →
        exec .pushm1 s = .next (s.setStack s.active (s.stack s.active ++ [0xFFFFFFFFFFFFFFFF#64]))) ∧
      (s.stackDepth = some (s.stack s.active).length →
        ∃ t, exec .pushm1 s = .next t ∧ t.status = .faulted (.stackOverflow s.pc s.active) ∧
          t.stack s.active = s.stack s.active)

/-- R131: `^`. -/
def Obligations.XorOfTopTwo : Prop := decode 0b0001#4 = .xor ∧ TwoOperand .xor fun a b => a ^^^ b

/-- R132: `|`. -/
def Obligations.OrOfTopTwo : Prop := decode 0b0010#4 = .or ∧ TwoOperand .or fun a b => a ||| b

/-- R133: `&`. -/
def Obligations.AndOfTopTwo : Prop := decode 0b0011#4 = .and ∧ TwoOperand .and fun a b => a &&& b

/-- R134: `+`, the sum modulo `2^64`. -/
def Obligations.AddWraps : Prop :=
  decode 0b0100#4 = .add ∧ TwoOperand .add fun a b => BitVec.ofNat 64 ((a.toNat + b.toNat) % 2 ^ 64)

/-- R135: `-`, the lower word less the top, modulo `2^64`. -/
def Obligations.SubWraps : Prop :=
  decode 0b0101#4 = .sub ∧ TwoOperand .sub fun a b => BitVec.ofNat 64 ((a.toNat + (2 ^ 64 - b.toNat)) % 2 ^ 64)

/-- R136: `*`, bits 63:0 of the 128-bit product of the signed operands. -/
def Obligations.MulLowHalf : Prop :=
  decode 0b0110#4 = .mul ∧
    TwoOperand .mul fun a b => (a.signExtend 128 * b.signExtend 128).extractLsb' 0 64

/-- R137: `/`: 0 for a zero divisor, `MIN` for `MIN / -1`, else the quotient rounded toward zero. The rounding is
the spec's decision D6 (log entry 13), and the wrapped `MIN / -1` is its inference. -/
def Obligations.DivTruncates : Prop :=
  decode 0b0111#4 = .div ∧
    ∃ q : Word → Word → Word, TwoOperand .div q ∧
      ∀ a b, (b = 0#64 → q a b = 0#64) ∧
        (a = 0x8000000000000000#64 → b = BitVec.allOnes 64 → q a b = 0x8000000000000000#64) ∧
        (b ≠ 0#64 → ¬(a = 0x8000000000000000#64 ∧ b = BitVec.allOnes 64) →
          (q a b).toInt = a.toInt.tdiv b.toInt)

/-- R34, R137, R152: `=/` replaces `x` by `x/x`, which is 1 for `x ≠ 0` and 0 for `x = 0`, in either mode; `=`
needs room for one more word. -/
def Obligations.DupDivTestsZero : Prop :=
  ∀ (s : State) (l : List Word) (x : Word), s.status = .running → s.io = none → s.DepthOk →
    s.stack s.active = l ++ [x] → s.stackDepth ≠ some (l.length + 1) →
    execSeq [.dup, .div] s = .next (s.setStack s.active (l ++ [if x = 0#64 then 0#64 else 1#64]))

/-- R199, R200: what an instruction did before a `raise` stays: `b` is gone when the pop of `a` faults; `~` has
taken the top of `S[0]` when `S[1]` is empty; a `?` that overflows has taken its answer. Of the two states R199
allows, the model's is the pseudocode's (log entry 3). -/
def Obligations.EffectsBeforeFaultStay : Prop :=
  (∀ (i : Instr) (s : State) (b : Word), i ∈ [Instr.xor, .or, .and, .add, .sub, .mul, .div] → s.strict = true →
    s.stack s.active = [b] →
    exec i s = .next (raise (.stackUnderflow s.pc s.active) (s.setStack s.active []))) ∧
  (∀ (s : State) (l : List Word) (x : Word), s.strict = true → s.stack0 = l ++ [x] → s.stack1 = [] →
    exec .xch s = .next (raise (.stackUnderflow s.pc .s1) (s.setStack .s0 l))) ∧
  (∀ (s : State) (r : InAnswer) (rest : List InAnswer), s.input = r :: rest →
    s.stackDepth = some (s.stack s.active).length →
    exec .inp s = .next (raise (.stackOverflow s.pc s.active) { s with input := rest, io := none }))

/-! ### The shift family -/

/-- R180: `0` shifts the top left by one, bit 0 clear, bit 63 lost (the loss is the spec's inference). -/
def Obligations.ShiftInZero : Prop := decode 0b1110#4 = .shl0 ∧ OneOperand .shl0 fun a => a <<< 1

/-- R181: `1` shifts the top left by one, bit 0 set. -/
def Obligations.ShiftInOne : Prop := decode 0b1111#4 = .shl1 ∧ OneOperand .shl1 fun a => (a <<< 1) ||| 1#64

/-! ### The stack family -/

/-- R150: `$` inverts `i` and changes nothing else; twice, it restores the state; no other instruction writes `i`. -/
def Obligations.SwitchInvertsIndex : Prop :=
  decode 0b1000#4 = .sws ∧
    ∀ s : State,
      (s.active = .s0 → exec .sws s = .next { s with active := .s1 }) ∧
      (s.active = .s1 → exec .sws s = .next { s with active := .s0 }) ∧
      (s.status = .running → s.io = none → execSeq [.sws, .sws] s = .next s) ∧
      ∀ (i : Instr) (t : State), i ≠ .sws → exec i s = .next t → t.active = s.active

/-- R151: `~` in all its forms: two tops, an empty stack in lenient mode, `StackUnderflow` in strict mode. That
stack 0 is reported where both are empty is the spec's decision D8 (log entry 15). -/
def Obligations.ExchangeTops : Prop :=
  decode 0b1001#4 = .xch ∧
    ∀ s : State, s.DepthOk →
      (∀ l m x y, s.stack0 = l ++ [x] → s.stack1 = m ++ [y] →
        exec .xch s = .next { s with stack0 := l ++ [y], stack1 := m ++ [x] }) ∧
      (∀ m y, s.strict = false → s.stack0 = [] → s.stack1 = m ++ [y] →
        exec .xch s = .next { s with stack0 := [y], stack1 := m ++ [BitVec.allOnes 64] }) ∧
      (∀ l x, s.strict = false → s.stack0 = l ++ [x] → s.stack1 = [] →
        exec .xch s = .next { s with stack0 := l ++ [BitVec.allOnes 64], stack1 := [x] }) ∧
      (s.strict = false → s.stack0 = [] → s.stack1 = [] →
        exec .xch s = .next { s with stack0 := [BitVec.allOnes 64], stack1 := [BitVec.allOnes 64] }) ∧
      (s.strict = true → s.stack0 = [] →
        ∃ t, exec .xch s = .next t ∧ t.status = .faulted (.stackUnderflow s.pc .s0)) ∧
      (s.strict = true → s.stack0 ≠ [] → s.stack1 = [] →
        ∃ t, exec .xch s = .next t ∧ t.status = .faulted (.stackUnderflow s.pc .s1))

/-- R152: `=` in all its forms. On an empty lenient stack it leaves two words, by the spec's decision D7 (log entry
14). -/
def Obligations.DuplicateTop : Prop :=
  decode 0b1010#4 = .dup ∧
    ∀ s : State, s.DepthOk →
      (∀ l x, s.stack s.active = l ++ [x] → s.stackDepth ≠ some (l.length + 1) →
        exec .dup s = .next (s.setStack s.active (l ++ [x, x]))) ∧
      (s.strict = false → s.stack s.active = [] → s.stackDepth ≠ some 1 →
        exec .dup s = .next (s.setStack s.active [BitVec.allOnes 64, BitVec.allOnes 64])) ∧
      (∀ l x, s.stack s.active = l ++ [x] → s.stackDepth = some (l.length + 1) →
        ∃ t, exec .dup s = .next t ∧ t.status = .faulted (.stackOverflow s.pc s.active) ∧
          t.stack s.active = l ++ [x]) ∧
      (s.strict = false → s.stack s.active = [] → s.stackDepth = some 1 →
        ∃ t, exec .dup s = .next t ∧ t.status = .faulted (.stackOverflow s.pc s.active)) ∧
      (s.strict = true → s.stack s.active = [] →
        ∃ t, exec .dup s = .next t ∧ t.status = .faulted (.stackUnderflow s.pc s.active))

/-! ### Control transfer -/

/-- R160: `@` halts on −1 with `pc` kept, adds any other offset to `pc`, pops −1 from an empty lenient stack, and
raises `StackUnderflow` on an empty strict one. The 64-bit width is the spec's decision D3 (log entry 16). -/
def Obligations.JumpOrHaltByOffset : Prop :=
  decode 0b1011#4 = .jmp ∧
    ∀ s : State,
      (∀ l a, s.stack s.active = l ++ [a] → a ≠ BitVec.allOnes 64 →
        exec .jmp s = .next { s.setStack s.active l with pc := BitVec.ofNat 64 ((s.pc.toNat + a.toNat) % 2 ^ 64) }) ∧
      (∀ l, s.stack s.active = l ++ [BitVec.allOnes 64] →
        exec .jmp s = .next { s.setStack s.active l with status := .halted }) ∧
      (s.strict = false → s.stack s.active = [] → exec .jmp s = .next { s with status := .halted }) ∧
      (s.strict = true → s.stack s.active = [] →
        ∃ t, exec .jmp s = .next t ∧ t.status = .faulted (.stackUnderflow s.pc s.active))

/-- R161, R162: the step of a non-halting `@` at index `p`: with `n = (p + u64(a) + 1) mod 2^64` the next `pc` is `n`
inside the code, 0 past it in lenient mode, and `OutOfCode(p, n)` past it in strict mode. That the offset is gone
from the stack in the faulted state too is the model's choice of the two states R199 allows (log entry 3). -/
def Obligations.BranchAddress : Prop :=
  ∀ (s : State) (l : List Word) (a : Word), s.status = .running → s.io = none → fetch s = .op .jmp →
    s.stack s.active = l ++ [a] → a ≠ BitVec.allOnes 64 →
    ∃ t, step s = .next t ∧ t.stack s.active = l ∧
      let n := (s.pc.toNat + a.toNat + 1) % 2 ^ 64
      (n < s.codeLen.toNat → t.status = .running ∧ t.pc.toNat = n) ∧
      (s.codeLen.toNat ≤ n → s.strict = false → t.status = .running ∧ t.pc = 0#64) ∧
      (s.codeLen.toNat ≤ n → s.strict = true → t.status = .faulted (.outOfCode s.pc (BitVec.ofNat 64 n)))

/-- R161 in signed terms: an offset with `-(p+1) <= s64(a) <= L - p - 2` reaches `p + 1 + s64(a)` in either mode; for
`L <= 2^63` no other offset reaches the code. -/
def Obligations.SignedBranchTarget : Prop :=
  ∀ (s : State) (l : List Word) (a : Word), s.status = .running → s.io = none → fetch s = .op .jmp →
    s.stack s.active = l ++ [a] → a ≠ BitVec.allOnes 64 →
    ((0 ≤ (s.pc.toNat : Int) + 1 + a.toInt ∧ (s.pc.toNat : Int) + 1 + a.toInt < s.codeLen.toNat) →
      ∃ t, step s = .next t ∧ t.status = .running ∧ (t.pc.toNat : Int) = s.pc.toNat + 1 + a.toInt) ∧
    (s.codeLen.toNat ≤ 2 ^ 63 →
      ¬(0 ≤ (s.pc.toNat : Int) + 1 + a.toInt ∧ (s.pc.toNat : Int) + 1 + a.toInt < s.codeLen.toNat) →
      ∃ t, step s = .next t ∧ ((s.strict = false ∧ t.status = .running ∧ t.pc = 0#64) ∨
        (s.strict = true ∧ ∃ n, t.status = .faulted (.outOfCode s.pc n))))

/-! ### Input and output -/

/-- R173: `?` takes the host's first answer and pushes the byte zero-extended, or −1 for `EOF` and for `Err`; on a
full stack it raises `StackOverflow`, the answer consumed. -/
def Obligations.InputPushesAnswer : Prop :=
  decode 0b1100#4 = .inp ∧
    ∀ (s : State) (r : InAnswer) (rest : List InAnswer), s.input = r :: rest →
      (s.stackDepth ≠ some (s.stack s.active).length →
        exec .inp s = .next ({ s with input := rest, io := none }.setStack s.active (s.stack s.active ++
          [match r with
            | .byte b => BitVec.ofNat 64 b.toNat
            | .eof => BitVec.allOnes 64
            | .err => BitVec.allOnes 64]))) ∧
      (s.stackDepth = some (s.stack s.active).length →
        ∃ t, exec .inp s = .next t ∧ t.status = .faulted (.stackOverflow s.pc s.active) ∧ t.input = rest)

/-- R171, R206: with no answer `?` waits: the request is outstanding and nothing else changes; a waiting machine
steps to itself; when the host has answered, the wait ends and `?` does what it does: it pushes the answer's word,
or, on a full stack, raises `StackOverflow` with the answer consumed. How a wait shows as a step is the model's (log
entry 4). -/
def Obligations.InputWaitsForHost : Prop :=
  (∀ s : State, s.input = [] → exec .inp s = .next { s with io := some .input }) ∧
  (∀ s : State, s.status = .running → s.io = some .input → s.input = [] → step s = .next s) ∧
  (∀ (s : State) (r : InAnswer), s.status = .running → s.io = some .input → s.input = [] →
    s.stackDepth ≠ some (s.stack s.active).length →
    step (s.hostAnswer r) =
      .next (advance s.pc ({ s with io := none }.setStack s.active (s.stack s.active ++ [answerWord r])))) ∧
  (∀ (s : State) (r : InAnswer), s.status = .running → s.io = some .input → s.input = [] →
    s.stackDepth = some (s.stack s.active).length →
    step (s.hostAnswer r) = .next (raise (.stackOverflow s.pc s.active) { s with io := none }))

/-- R174: `.` pops a word and writes its low 8 bits; 0xFF for an empty lenient stack; on an empty strict stack it
faults and writes nothing. The host here accepts the byte (log entry 5). -/
def Obligations.OutputWritesLowByte : Prop :=
  decode 0b1101#4 = .out ∧
    ∀ s : State,
      (∀ l a, s.accepts ≠ some 0 → s.stack s.active = l ++ [a] →
        exec .out s = .next { s.setStack s.active l with
          output := s.output ++ [BitVec.ofNat 8 (a.toNat % 256)], accepts := s.accepts.map (· - 1), io := none }) ∧
      (s.accepts ≠ some 0 → s.strict = false → s.stack s.active = [] →
        exec .out s = .next { s with
          output := s.output ++ [0xFF#8], accepts := s.accepts.map (· - 1), io := none }) ∧
      (s.strict = true → s.stack s.active = [] →
        ∃ t, exec .out s = .next t ∧ t.status = .faulted (.stackUnderflow s.pc s.active) ∧ t.output = s.output)

/-- R172, R174, R206: where the host accepts nothing now, `.` has popped its word and waits with the byte offered,
0xFF for an empty lenient stack; a waiting machine steps to itself; when the host accepts again the byte goes out and
the cycle ends. The count of bytes the host accepts is the model's (log entry 5). -/
def Obligations.OutputWaitsForHost : Prop :=
  (∀ (s : State) (l : List Word) (a : Word), s.accepts = some 0 → s.stack s.active = l ++ [a] →
    exec .out s = .next { s.setStack s.active l with io := some (.output (a.setWidth 8)) }) ∧
  (∀ s : State, s.accepts = some 0 → s.strict = false → s.stack s.active = [] →
    exec .out s = .next { s with io := some (.output 0xFF#8) }) ∧
  (∀ (s : State) (b : Byte), s.status = .running → s.io = some (.output b) → s.accepts = some 0 →
    step s = .next s) ∧
  (∀ (s : State) (b : Byte) (n : Nat), s.status = .running → s.io = some (.output b) → s.accepts = some 0 →
    step (s.hostAccept (n + 1)) =
      .next (advance s.pc { s with output := s.output ++ [b], accepts := some n, io := none }))

/-! ### Frames -/

/-- The frame of the instructions on the active stack alone (R22, R23): the other stack, `i`, `pc`, the
configuration, code memory and the ports are as before; below the two top words the active stack is as before. -/
def Obligations.FrameActiveStackInstrs : Prop :=
  ∀ (i : Instr) (s t : State), i ∈ activeStackInstrs → exec i s = .next t →
    (∀ k, k ≠ s.active → t.stack k = s.stack k) ∧
    (s.stack s.active).take ((s.stack s.active).length - 2) <+: t.stack s.active ∧
    t.active = s.active ∧ t.pc = s.pc ∧ SameCode s t ∧ SamePorts s t ∧ KeptOrRaised s t

/-- The frame of `$` (R150): everything but `i`. -/
def Obligations.FrameSwitch : Prop :=
  ∀ s t : State, exec .sws s = .next t →
    t.stack0 = s.stack0 ∧ t.stack1 = s.stack1 ∧ t.pc = s.pc ∧ t.status = s.status ∧ t.diag = s.diag ∧
      SameCode s t ∧ SamePorts s t

/-- The frame of `~` (R151): of each stack only the top may change, and `i` neither changes nor matters. -/
def Obligations.FrameExchange : Prop :=
  ∀ s t : State, exec .xch s = .next t →
    s.stack0.dropLast <+: t.stack0 ∧ s.stack1.dropLast <+: t.stack1 ∧ t.active = s.active ∧ t.pc = s.pc ∧
      SameCode s t ∧ SamePorts s t ∧ KeptOrRaised s t ∧
      ∀ k, ∃ u, exec .xch (s.setActive k) = .next u ∧ u.stack0 = t.stack0 ∧ u.stack1 = t.stack1 ∧ u.active = k

/-- The frame of `@` (R160): the active stack loses at most its top, `pc` and `status` may change. -/
def Obligations.FrameJump : Prop :=
  ∀ s t : State, exec .jmp s = .next t →
    (∀ k, k ≠ s.active → t.stack k = s.stack k) ∧ t.stack s.active = (s.stack s.active).dropLast ∧
      t.active = s.active ∧ SameCode s t ∧ SamePorts s t ∧
      (KeptOrRaised s t ∨ t.status = .halted ∧ t.diag = s.diag) ∧
      (t.pc ≠ s.pc → t.status = s.status)

/-- The frame of `?` (R173): the active stack gains at most one word, answers leave the front of the input only. -/
def Obligations.FrameInput : Prop :=
  ∀ s t : State, exec .inp s = .next t →
    (∀ k, k ≠ s.active → t.stack k = s.stack k) ∧ s.stack s.active <+: t.stack s.active ∧
      (t.stack s.active).length ≤ (s.stack s.active).length + 1 ∧ t.input = s.input.drop 1 ∧
      t.active = s.active ∧ t.pc = s.pc ∧ SameCode s t ∧ t.accepts = s.accepts ∧ t.output = s.output ∧
      KeptOrRaised s t

/-- The frame of `.` (R174): the active stack loses at most its top, the output gains at most one byte. -/
def Obligations.FrameOutput : Prop :=
  ∀ s t : State, exec .out s = .next t →
    (∀ k, k ≠ s.active → t.stack k = s.stack k) ∧ t.stack s.active = (s.stack s.active).dropLast ∧
      s.output <+: t.output ∧ t.output.length ≤ s.output.length + 1 ∧ t.input = s.input ∧
      t.active = s.active ∧ t.pc = s.pc ∧ SameCode s t ∧ KeptOrRaised s t

/-! ### The step cycle -/

/-- R27, R52, R59, R87: a step of a running machine with nothing outstanding runs the instruction its code holds at
`pc`: the selected nibble of the byte at `pc >> 1` in a packed image, the symbol at `pc` in character form. The
trace record comes first; the increment and the range check (`cycleEnd`, through `finish`) come last. -/
def Obligations.StepRunsDecodedInstruction : Prop :=
  ∀ (s : State) (i : Instr), s.status = .running → s.io = none → s.pc < s.codeLen → i.wellFormed = true →
    ((s.codeForm = .packed ∧ ∃ b, Memory.read s.code (s.pc.toNat / 2) = some b ∧
        decode (if s.pc.toNat % 2 = 0 then b.extractLsb' 4 4 else b.extractLsb' 0 4) = i) ∨
      (s.codeForm = .characters ∧ Memory.read s.code s.pc.toNat = some (symbol i))) →
    step s = finish s.pc (exec i (traceOut i s)) ∧
      ∀ u, exec i (traceOut i s) = .next u → step s = .next (cycleEnd s.pc u)

/-- R28: every instruction but `@` leaves `pc` alone in `Execute`; the next step's `pc` is then `pc + 1`, or 0 after a
lenient wrap; a non-halting `@` has written `pc + u64(a)` first; a halting `@` and a faulting instruction end the
step before the increment. -/
def Obligations.PcAdvancesByOne : Prop :=
  (∀ (i : Instr) (s t : State), i ≠ .jmp → exec i s = .next t → t.pc = s.pc) ∧
  (∀ (i : Instr) (s t : State), s.status = .running → s.io = none → fetch s = .op i → step s = .next t →
    (i ≠ .jmp → t.status = .running → t.io = none →
      (s.pc.toNat + 1 < s.codeLen.toNat → t.pc.toNat = s.pc.toNat + 1) ∧
      (s.codeLen.toNat ≤ s.pc.toNat + 1 → s.strict = false ∧ t.pc = 0#64)) ∧
    (i = .jmp → t.status = .running → ∃ a, a ≠ BitVec.allOnes 64 ∧ a ∈ (s.stack s.active).getLast? ∧
      (t.pc = s.pc + a + 1#64 ∨ s.strict = false ∧ t.pc = 0#64)) ∧
    (t.status = .halted → t.pc = s.pc) ∧
    (∀ k, t.status = .faulted (.stackUnderflow s.pc k) ∨ t.status = .faulted (.stackOverflow s.pc k) →
      t.pc = s.pc))

/-- R27, R29, R195: the range check after an instruction that completes: inside the code the incremented `pc`
stands; past it lenient mode sets `pc` to 0 exactly and strict mode raises `OutOfCode` with the index of the
instruction and the out-of-range value. -/
def Obligations.RangeCheckEndsStep : Prop :=
  ∀ (s : State) (i : Instr) (u : State), s.status = .running → s.io = none → fetch s = .op i →
    exec i (traceOut i s) = .next u → u.status = .running → u.io = none →
    let n : Word := BitVec.ofNat 64 ((u.pc.toNat + 1) % 2 ^ 64)
    (n.toNat < s.codeLen.toNat → step s = .next { u with pc := n }) ∧
    (s.codeLen.toNat ≤ n.toNat → s.strict = false → step s = .next { u with pc := 0#64 }) ∧
    (s.codeLen.toNat ≤ n.toNat → s.strict = true →
      ∃ t, step s = .next t ∧ t.status = .faulted (.outOfCode s.pc n))

/-- R87, R197, R200: a byte outside the alphabet at `pc` of character-form code raises `InternalError` in either mode
before anything executes; that no trace record is made is the model's reading (log entry 25). -/
def Obligations.NonAlphabetByteFaults : Prop :=
  ∀ (s : State) (b : Byte), s.status = .running → s.io = none → s.codeForm = .characters → s.pc < s.codeLen →
    Memory.read s.code s.pc.toNat = some b → b ∉ alphabet →
    step s = .next { s with
      status := .faulted (.internalError s.pc b), diag := s.diag ++ [.failure (.internalError s.pc b)] }

/-- R36: a halted and a faulted machine make no step; the exit status is 0 after a halt and non-zero after a fault
(R192, R193). -/
def Obligations.StoppedIsFinal : Prop :=
  (∀ s : State, s.status ≠ .running → step s = .fault .stopped) ∧
    exitStatus .halted = some 0 ∧ ∀ f, ∃ n, exitStatus (.faulted f) = some n ∧ n ≠ 0

/-- R24: only `$` writes `i`, and it inverts it; `~` reaches both stacks whatever `i` is and does not change it. -/
def Obligations.OnlySwitchWritesIndex : Prop :=
  (∀ (i : Instr) (s t : State), exec i s = .next t →
    (i ≠ .sws → t.active = s.active) ∧ (i = .sws → t.active ≠ s.active)) ∧
  (∀ s t : State, step s = .next t → t.active ≠ s.active → fetch s = .op .sws) ∧
  (∀ (s : State) (l m : List Word) (x y : Word), s.DepthOk → s.stack0 = l ++ [x] → s.stack1 = m ++ [y] →
    ∃ t, exec .xch s = .next t ∧ t.stack0 = l ++ [y] ∧ t.stack1 = m ++ [x] ∧ t.active = s.active)

/-- R170: no instruction but `.` touches the output and none but `?` the input. -/
def Obligations.OnlyInAndOutTouchPorts : Prop :=
  ∀ (i : Instr) (s t : State), exec i s = .next t →
    (i ≠ .out → t.output = s.output ∧ t.accepts = s.accepts) ∧ (i ≠ .inp → t.input = s.input) ∧
      (i ≠ .inp → i ≠ .out → t.io = s.io)

/-- R33, R58, R67: no step changes the configuration or any byte of code memory. -/
def Obligations.StepKeepsCodeAndConfig : Prop :=
  ∀ s t : State, step s = .next t → SameCode s t ∧ t.code = s.code

/-- R64, R192, R199: a step takes answers from the front of the input and only adds to the end of the output and of the
diagnostic sink; what was written stays. -/
def Obligations.StreamsOnlyGrow : Prop :=
  ∀ s t : State, step s = .next t →
    s.output <+: t.output ∧ s.diag <+: t.diag ∧ t.input <:+ s.input ∧
      t.output.length ≤ s.output.length + 1 ∧ s.input.length ≤ t.input.length + 1

/-- R192: the VM can halt only through `@` popping −1, and then `pc` is still the index of that `@`. -/
def Obligations.HaltOnlyByJumpMinusOne : Prop :=
  ∀ s t : State, step s = .next t → t.status = .halted →
    fetch s = .op .jmp ∧ t.pc = s.pc ∧
      ((∃ l, s.stack s.active = l ++ [BitVec.allOnes 64] ∧ t.stack s.active = l) ∨
        (s.strict = false ∧ s.stack s.active = [] ∧ t.stack s.active = []))

/-- R27, R205: with `TRACE_EN = 1` a step first adds one record of `(i, S[0], S[1], pc, symbol)` to the diagnostic sink,
also where it halts or faults; with `TRACE_EN = 0` it adds no record. -/
def Obligations.TraceRecordFirst : Prop :=
  (∀ (s t : State) (i : Instr), s.traceEn = true → s.io = none → fetch s = .op i → step s = .next t →
    s.diag ++ [.trace { active := s.active, stack0 := s.stack0, stack1 := s.stack1, pc := s.pc, instr := i }]
      <+: t.diag) ∧
  (∀ s t : State, s.traceEn = false → step s = .next t → t.diag.filter isTrace = s.diag.filter isTrace)

/-! ### Launch and reset -/

/-- R41: the reset values the spec gives. What stands where the spec leaves the value to the launch (no code, no
answer, no limit on acceptance) is the model's choice (log entries 4 to 6) and is not stated here. -/
def Obligations.ResetValues : Prop :=
  State.reset.stack0 = [] ∧ State.reset.stack1 = [] ∧ State.reset.active = .s0 ∧ State.reset.pc = 0#64 ∧
    State.reset.strict = false ∧ State.reset.traceEn = false ∧ State.reset.stackDepth = none ∧
    State.reset.status = .running ∧ State.reset.io = none

/-- R220, R41, R53: a launch of non-empty code gives the reset values with every parameter and the code in place. That
a launch takes any bytes as characters is the model's reading (log entry 28); that the output and the diagnostic sink
are empty and that `input` and `accepts` are parameters are its choices (log entries 4 to 6). -/
def Obligations.LaunchGivesResetState : Prop :=
  ∀ (p : LaunchParams) (img : List Byte), img ≠ [] → p.stackDepth ≠ some 0 →
    (2 * img.length < 2 ^ 64 → ∃ s, launchPacked p img = .ok s ∧ LaunchedWith p s ∧
      s.codeForm = .packed ∧ s.codeLen.toNat = 2 * img.length ∧ ∀ a, Memory.read s.code a = img[a]?) ∧
    (img.length < 2 ^ 64 → ∃ s, launchResolved p img = .ok s ∧ LaunchedWith p s ∧
      s.codeForm = .characters ∧ s.codeLen.toNat = img.length ∧ ∀ a, Memory.read s.code a = img[a]?)

/-- R221: a launch of empty code is refused, and a machine with no code makes no step. -/
def Obligations.EmptyCodeRefused : Prop :=
  (∀ p : LaunchParams, launchPacked p [] = .error .emptyCode ∧ launchResolved p [] = .error .emptyCode) ∧
    ∀ s : State, s.status = .running → s.io = none → s.codeLen = 0#64 → step s = .refused .emptyCode

/-! ### Invariants and whole-machine rules -/

/-- The invariant holds at reset. That the reset state has no code and `L = 0` is the model's choice (log entry 6).
-/
def Obligations.InvariantAtReset : Prop := State.reset.Inv

/-- The invariant holds in every launched machine (R26, R41, R220). -/
def Obligations.InvariantAtLaunch : Prop :=
  ∀ (p : LaunchParams) (bytes : List Byte) (s : State),
    launchPacked p bytes = .ok s ∨ launchResolved p bytes = .ok s → s.Inv ∧ s.pc < s.codeLen

/-- R26 and the model's other invariants: every step keeps the code loaded and canonical, the stacks within their
capacity, `pc` inside the code while the machine runs, and a wait a wait of the instruction at `pc`. -/
def Obligations.InvariantKeptByStep : Prop :=
  ∀ s t : State, s.Inv → step s = .next t → t.Inv

/-- R27, R86: a running machine with code always makes a step: none of the model's own stops is reached. For a machine
that waits for the host the step is the model's (log entry 4): it takes up the instruction, and without an answer or
an acceptance leaves the state as it is, where R206 says that no step is taken. -/
def Obligations.RunningMachineSteps : Prop :=
  ∀ s : State, s.Inv → s.status = .running → s.codeLen ≠ 0#64 → ∃ t, step s = .next t

/-- R207: in lenient mode, with unbounded stacks and code from the front end, executing never aborts; only `@` on −1
halts, with the −1 the popped top or that of an empty stack. The premises hold again after the step. For a machine
that waits for the host the step is the model's (log entry 4). -/
def Obligations.LenientNeverAborts : Prop :=
  ∀ s : State, s.Inv → s.CodeInAlphabet → s.strict = false → s.stackDepth = none → s.status = .running →
    s.codeLen ≠ 0#64 →
    ∃ t, step s = .next t ∧
      (t.status = .running ∨
        t.status = .halted ∧ fetch s = .op .jmp ∧ t.pc = s.pc ∧
          ((∃ l, s.stack s.active = l ++ [BitVec.allOnes 64] ∧ t.stack s.active = l) ∨
            s.stack s.active = [] ∧ t.stack s.active = [])) ∧
      t.Inv ∧ t.CodeInAlphabet ∧ t.strict = false ∧ t.stackDepth = none ∧ t.codeLen ≠ 0#64

/-- R32, R205: the trace has no effect on any VM state or on the output port: a step commutes with leaving the trace
out, whether it ends in a next state or stops. -/
def Obligations.TraceHasNoEffect : Prop :=
  ∀ s : State,
    (∀ t, step s = .next t → step s.noTrace = .next t.noTrace) ∧
    (∀ f, step s = .fault f → step s.noTrace = .fault f) ∧
    (∀ r, step s = .refused r → step s.noTrace = .refused r)

/-- R31: strict mode changes exactly two behaviours: a strict step that raises neither `StackUnderflow` nor
`OutOfCode` is also the lenient step from that state, and in lenient mode neither is ever raised. -/
def Obligations.StrictDiffersOnlyInFaults : Prop :=
  (∀ s t : State, step s = .next t → t.status.isStrictFault = false → step s.lenient = .next t.lenient) ∧
  (∀ s t : State, step s = .next t → s.strict = false → t.status.isStrictFault = false)

/-- R114: `Expand(v)` is `!` and then the 64 bits of `v` in the symbols `0` and `1`, most significant first. The
codes 0x21, 0x30 and 0x31 of the three symbols are R82's column from general knowledge (log entry 10). -/
def Obligations.ExpansionShape : Prop :=
  ∀ v : Word, (expand v).length = 65 ∧ (expand v)[0]? = some 0x21#8 ∧
    ∀ j, j < 64 → (expand v)[j + 1]? = some (if v.getLsbD (63 - j) then 0x31#8 else 0x30#8)

/-- R115, R182: executing `Expand(v)` pushes `v` on the active stack and changes nothing else, in either mode and on
any stack that is not full; on a full one the `!` raises `StackOverflow`. -/
def Obligations.ExpansionPushesValue : Prop :=
  ∀ (v : Word) (s : State), s.status = .running → s.io = none →
    (s.stackDepth ≠ some (s.stack s.active).length →
      execSeq (expandInstrs v) s = .next (s.setStack s.active (s.stack s.active ++ [v]))) ∧
    (s.stackDepth = some (s.stack s.active).length →
      ∃ t, execSeq (expandInstrs v) s = .next t ∧ t.status = .faulted (.stackOverflow s.pc s.active))

/-! ### The toolchain -/

/-- R104, R105, R106: a label's value is the code index of the first opcode emitted after its last declaration: the
length of the code emitted before it. -/
def Obligations.LabelIsCodeOffset : Prop :=
  ∀ (before after : List Token) (n c : List Byte), Token.label n ∉ after →
    passTwo (labelsOf (before ++ [Token.label n] ++ after)) before = .ok c →
    (labelsOf (before ++ [Token.label n] ++ after)).find n = some c.length ∧ c.length = totalWidth before

/-- R87, R96, R110: the front end never emits a byte outside the alphabet. -/
def Obligations.AssembledCodeInAlphabet : Prop :=
  ∀ src c : List Byte, assemble src = .ok c → c.all (fun b => alphabet.contains b) = true

/-- R101: the first byte >= 0x80 is a lexical error at its 1-based line and column, in every tokenizer state; 0x0D does
not advance the column. The exact counting is the spec's decision D25 (log entry 22); that the first of several lexical
errors is the one reported is the model's choice (log entry 21). -/
def Obligations.NonAsciiByteReported : Prop :=
  ∀ (before rest : List Byte) (b : Byte), (∀ x ∈ before, x < 0x80#8) → 0x80#8 ≤ b →
    tokenize (before ++ [b] ++ rest) =
      .error (.nonAscii (before.count 0x0A#8 + 1)
        ((before.reverse.takeWhile fun x => x != 0x0A#8).countP (fun x => x != 0x0D#8) + 1))
end

