-- ==== Sys2Proof/Laws/Arith.lean ====
section
/-! SUPPORT. What the pseudocode's integer formulas come to as operations on bit vectors. -/

namespace Sys2Proof.Machine

/-- Signed and unsigned addition give the same bits (R134, R138). -/
theorem add64_eq (a b : Word) : add64 a b = a + b := by
  unfold add64 wrap64 s64
  rw [BitVec.ofInt_add, BitVec.ofInt_toInt, BitVec.ofInt_toInt]

theorem mul64_eq (a b : Word) : mul64 a b = a * b := by
  unfold mul64 wrap64 s64
  rw [BitVec.ofInt_mul, BitVec.ofInt_toInt, BitVec.ofInt_toInt]

theorem sub64_eq (a b : Word) : sub64 a b = a - b := by
  unfold sub64 wrap64 s64
  apply BitVec.eq_of_toInt_eq
  rw [BitVec.toInt_ofInt, BitVec.toInt_sub]

/-- The wrapped truncated quotient is the bit-vector signed division, zero divisor included (R137). -/
theorem div64_eq (a b : Word) : div64 a b = a.sdiv b := by
  apply BitVec.eq_of_toInt_eq
  unfold div64 wrap64 s64
  split_ifs with h
  · have : b = 0#64 := BitVec.eq_of_toInt_eq (by simpa using h)
    subst this; simp
  · rw [BitVec.toInt_ofInt, BitVec.toInt_sdiv]

theorem shiftIn_zero (a : Word) : shiftIn a 0b0#1 = a <<< 1 := by
  apply BitVec.eq_of_getLsbD_eq
  intro i hi
  unfold shiftIn
  rw [BitVec.getLsbD_append]
  cases i with
  | zero => simp
  | succ n =>
    have hn : n < 63 := by omega
    simp only [BitVec.getLsbD_shiftLeft]
    simp [hi, hn]

theorem shiftIn_one (a : Word) : shiftIn a 0b1#1 = (a <<< 1) ||| 1#64 := by
  apply BitVec.eq_of_getLsbD_eq
  intro i hi
  unfold shiftIn
  rw [BitVec.getLsbD_append]
  cases i with
  | zero => simp
  | succ n =>
    have hn : n < 63 := by omega
    simp only [BitVec.getLsbD_shiftLeft, BitVec.getLsbD_or]
    simp [hi, hn]

theorem lowByte_eq (a : Word) : lowByte a = a.setWidth 8 := by
  apply BitVec.eq_of_getLsbD_eq
  intro i hi
  simp [lowByte, hi]

theorem branchBase_eq (pc a : Word) : branchBase pc a = pc + a := by
  apply BitVec.eq_of_toNat_eq
  simp [branchBase, u64]

theorem nextIndex_eq (pc : Word) : nextIndex pc = pc + 1#64 := by
  apply BitVec.eq_of_toNat_eq
  simp [nextIndex, u64]

theorem pastCode_iff (n codeLen : Word) : pastCode n codeLen = true ↔ codeLen ≤ n := by
  simp [pastCode]

theorem pastCode_false_iff (n codeLen : Word) : pastCode n codeLen = false ↔ n < codeLen := by
  simp [pastCode, BitVec.not_le]

theorem isHaltOffset_iff (a : Word) : isHaltOffset a = true ↔ a = minusOne := by
  simp [isHaltOffset]

end Sys2Proof.Machine
end

