-- ==== Sys2Proof/Laws/Memory.lean ====
section
/-! SUPPORT. The laws of code memory: read after write, and the canonical form kept by every operation. -/

namespace Sys2Proof.Machine

@[simp] theorem Memory.read_nil (addr : Nat) : Memory.read [] addr = none := rfl

theorem Memory.read_write_same (m : Memory) (addr : Nat) (v : Byte) :
    Memory.read (Memory.write m addr v) addr = some v := by
  induction m with
  | nil => simp [Memory.write, Memory.read]
  | cons c rest ih =>
    obtain ⟨a, b⟩ := c
    unfold Memory.write
    split_ifs with h1 h2
    · simp [Memory.read]
    · simp [Memory.read]
    · rw [Memory.read, if_neg (fun h => h2 h.symm), ih]

theorem Memory.read_write_other (m : Memory) {addr other : Nat} (h : other ≠ addr) (v : Byte) :
    Memory.read (Memory.write m addr v) other = Memory.read m other := by
  induction m with
  | nil => simp [Memory.write, Memory.read, h.symm, Memory.unlisted]
  | cons c rest ih =>
    obtain ⟨a, b⟩ := c
    unfold Memory.write
    split_ifs with h1 h2
    · rw [Memory.read, if_neg h.symm]
    · subst h2; simp [Memory.read, h.symm]
    · simp only [Memory.read, ih]

/-- The first address of a canonical memory is its least. -/
theorem Memory.wf_cons (a : Nat) (b : Byte) (m : Memory) :
    Memory.wf ((a, b) :: m) = true ↔ (∀ c ∈ m.head?, a < c.1) ∧ Memory.wf m = true := by
  cases m with
  | nil => simp [Memory.wf]
  | cons c rest => obtain ⟨a', b'⟩ := c; simp [Memory.wf]

theorem Memory.write_head (m : Memory) (addr : Nat) (v : Byte) :
    ∀ c ∈ (Memory.write m addr v).head?, c.1 = addr ∨ ∃ d ∈ m.head?, c.1 = d.1 := by
  cases m with
  | nil => simp [Memory.write]
  | cons d rest =>
    obtain ⟨a, b⟩ := d
    unfold Memory.write
    split_ifs <;> simp

/-- A write keeps the canonical form. -/
theorem Memory.write_wf (m : Memory) (addr : Nat) (v : Byte) (h : Memory.wf m = true) :
    Memory.wf (Memory.write m addr v) = true := by
  induction m with
  | nil => rfl
  | cons c rest ih =>
    obtain ⟨a, b⟩ := c
    have hc := (Memory.wf_cons a b rest).mp h
    unfold Memory.write
    split_ifs with h1 h2
    · exact (Memory.wf_cons _ _ _).mpr ⟨by simpa using h1, h⟩
    · subst h2; exact (Memory.wf_cons _ _ _).mpr hc
    · refine (Memory.wf_cons _ _ _).mpr ⟨fun d hd => ?_, ih hc.2⟩
      rcases Memory.write_head rest addr v d hd with he | ⟨e, he, hde⟩
      · omega
      · have := hc.1 e he; omega

/-- A loaded image is canonical. -/
theorem Memory.load_wf (base : Nat) (bytes : List Byte) : Memory.wf (Memory.load base bytes) = true := by
  induction bytes generalizing base with
  | nil => rfl
  | cons b rest ih =>
    refine (Memory.wf_cons _ _ _).mpr ⟨fun c hc => ?_, ih _⟩
    cases rest with
    | nil => simp [Memory.load] at hc
    | cons d rest => simp [Memory.load] at hc; subst hc; simp

/-- What a loaded image reads as: byte `n` of it at address `base + n`, nothing elsewhere. -/
theorem Memory.read_load (base : Nat) (bytes : List Byte) (addr : Nat) :
    Memory.read (Memory.load base bytes) addr = if base ≤ addr then bytes[addr - base]? else none := by
  induction bytes generalizing base with
  | nil => simp [Memory.load]
  | cons b rest ih =>
    rw [Memory.load, Memory.read]
    rcases lt_trichotomy base addr with h | h | h
    · rw [if_neg (by omega), ih, if_pos (by omega), if_pos (by omega),
        show addr - base = (addr - (base + 1)) + 1 by omega, List.getElem?_cons_succ]
    · subst h; simp
    · rw [if_neg (by omega), ih, if_neg (by omega), if_neg (by omega)]

/-- The memory at reset is canonical. -/
theorem Memory.reset_wf : Memory.wf State.reset.code = true := rfl

end Sys2Proof.Machine
end

