-- ==== Sys2Proof/Laws/State.lean ====
section
/-! SUPPORT. One lemma per field per named update of the state, so that no later proof unfolds a record update. -/

namespace Sys2Proof.Machine

/-! ### `setActive` -/

@[simp] theorem setActive_stack0 (s : State) (k : StackId) : (s.setActive k).stack0 = s.stack0 := rfl
@[simp] theorem setActive_stack1 (s : State) (k : StackId) : (s.setActive k).stack1 = s.stack1 := rfl
@[simp] theorem setActive_active (s : State) (k : StackId) : (s.setActive k).active = k := rfl
@[simp] theorem setActive_pc (s : State) (k : StackId) : (s.setActive k).pc = s.pc := rfl
@[simp] theorem setActive_strict (s : State) (k : StackId) : (s.setActive k).strict = s.strict := rfl
@[simp] theorem setActive_traceEn (s : State) (k : StackId) : (s.setActive k).traceEn = s.traceEn := rfl
@[simp] theorem setActive_stackDepth (s : State) (k : StackId) : (s.setActive k).stackDepth = s.stackDepth := rfl
@[simp] theorem setActive_codeForm (s : State) (k : StackId) : (s.setActive k).codeForm = s.codeForm := rfl
@[simp] theorem setActive_codeLen (s : State) (k : StackId) : (s.setActive k).codeLen = s.codeLen := rfl
@[simp] theorem setActive_code (s : State) (k : StackId) : (s.setActive k).code = s.code := rfl
@[simp] theorem setActive_status (s : State) (k : StackId) : (s.setActive k).status = s.status := rfl
@[simp] theorem setActive_io (s : State) (k : StackId) : (s.setActive k).io = s.io := rfl
@[simp] theorem setActive_input (s : State) (k : StackId) : (s.setActive k).input = s.input := rfl
@[simp] theorem setActive_accepts (s : State) (k : StackId) : (s.setActive k).accepts = s.accepts := rfl
@[simp] theorem setActive_output (s : State) (k : StackId) : (s.setActive k).output = s.output := rfl
@[simp] theorem setActive_diag (s : State) (k : StackId) : (s.setActive k).diag = s.diag := rfl
@[simp] theorem setActive_stack (s : State) (k : StackId) (j : StackId) : (s.setActive k).stack j = s.stack j := by cases j <;> rfl

/-! ### `setPc` -/

@[simp] theorem setPc_stack0 (s : State) (t : Word) : (s.setPc t).stack0 = s.stack0 := rfl
@[simp] theorem setPc_stack1 (s : State) (t : Word) : (s.setPc t).stack1 = s.stack1 := rfl
@[simp] theorem setPc_active (s : State) (t : Word) : (s.setPc t).active = s.active := rfl
@[simp] theorem setPc_pc (s : State) (t : Word) : (s.setPc t).pc = t := rfl
@[simp] theorem setPc_strict (s : State) (t : Word) : (s.setPc t).strict = s.strict := rfl
@[simp] theorem setPc_traceEn (s : State) (t : Word) : (s.setPc t).traceEn = s.traceEn := rfl
@[simp] theorem setPc_stackDepth (s : State) (t : Word) : (s.setPc t).stackDepth = s.stackDepth := rfl
@[simp] theorem setPc_codeForm (s : State) (t : Word) : (s.setPc t).codeForm = s.codeForm := rfl
@[simp] theorem setPc_codeLen (s : State) (t : Word) : (s.setPc t).codeLen = s.codeLen := rfl
@[simp] theorem setPc_code (s : State) (t : Word) : (s.setPc t).code = s.code := rfl
@[simp] theorem setPc_status (s : State) (t : Word) : (s.setPc t).status = s.status := rfl
@[simp] theorem setPc_io (s : State) (t : Word) : (s.setPc t).io = s.io := rfl
@[simp] theorem setPc_input (s : State) (t : Word) : (s.setPc t).input = s.input := rfl
@[simp] theorem setPc_accepts (s : State) (t : Word) : (s.setPc t).accepts = s.accepts := rfl
@[simp] theorem setPc_output (s : State) (t : Word) : (s.setPc t).output = s.output := rfl
@[simp] theorem setPc_diag (s : State) (t : Word) : (s.setPc t).diag = s.diag := rfl
@[simp] theorem setPc_stack (s : State) (t : Word) (j : StackId) : (s.setPc t).stack j = s.stack j := by cases j <;> rfl

/-! ### `raise` -/

@[simp] theorem raise_stack0 (s : State) (f : VmFault) : (raise f s).stack0 = s.stack0 := rfl
@[simp] theorem raise_stack1 (s : State) (f : VmFault) : (raise f s).stack1 = s.stack1 := rfl
@[simp] theorem raise_active (s : State) (f : VmFault) : (raise f s).active = s.active := rfl
@[simp] theorem raise_pc (s : State) (f : VmFault) : (raise f s).pc = s.pc := rfl
@[simp] theorem raise_strict (s : State) (f : VmFault) : (raise f s).strict = s.strict := rfl
@[simp] theorem raise_traceEn (s : State) (f : VmFault) : (raise f s).traceEn = s.traceEn := rfl
@[simp] theorem raise_stackDepth (s : State) (f : VmFault) : (raise f s).stackDepth = s.stackDepth := rfl
@[simp] theorem raise_codeForm (s : State) (f : VmFault) : (raise f s).codeForm = s.codeForm := rfl
@[simp] theorem raise_codeLen (s : State) (f : VmFault) : (raise f s).codeLen = s.codeLen := rfl
@[simp] theorem raise_code (s : State) (f : VmFault) : (raise f s).code = s.code := rfl
@[simp] theorem raise_status (s : State) (f : VmFault) : (raise f s).status = .faulted f := rfl
@[simp] theorem raise_io (s : State) (f : VmFault) : (raise f s).io = s.io := rfl
@[simp] theorem raise_input (s : State) (f : VmFault) : (raise f s).input = s.input := rfl
@[simp] theorem raise_accepts (s : State) (f : VmFault) : (raise f s).accepts = s.accepts := rfl
@[simp] theorem raise_output (s : State) (f : VmFault) : (raise f s).output = s.output := rfl
@[simp] theorem raise_diag (s : State) (f : VmFault) : (raise f s).diag = s.diag ++ [.failure f] := rfl
@[simp] theorem raise_stack (s : State) (f : VmFault) (j : StackId) : (raise f s).stack j = s.stack j := by cases j <;> rfl

/-! ### `halt` -/

@[simp] theorem halt_stack0 (s : State) : (halt s).stack0 = s.stack0 := rfl
@[simp] theorem halt_stack1 (s : State) : (halt s).stack1 = s.stack1 := rfl
@[simp] theorem halt_active (s : State) : (halt s).active = s.active := rfl
@[simp] theorem halt_pc (s : State) : (halt s).pc = s.pc := rfl
@[simp] theorem halt_strict (s : State) : (halt s).strict = s.strict := rfl
@[simp] theorem halt_traceEn (s : State) : (halt s).traceEn = s.traceEn := rfl
@[simp] theorem halt_stackDepth (s : State) : (halt s).stackDepth = s.stackDepth := rfl
@[simp] theorem halt_codeForm (s : State) : (halt s).codeForm = s.codeForm := rfl
@[simp] theorem halt_codeLen (s : State) : (halt s).codeLen = s.codeLen := rfl
@[simp] theorem halt_code (s : State) : (halt s).code = s.code := rfl
@[simp] theorem halt_status (s : State) : (halt s).status = .halted := rfl
@[simp] theorem halt_io (s : State) : (halt s).io = s.io := rfl
@[simp] theorem halt_input (s : State) : (halt s).input = s.input := rfl
@[simp] theorem halt_accepts (s : State) : (halt s).accepts = s.accepts := rfl
@[simp] theorem halt_output (s : State) : (halt s).output = s.output := rfl
@[simp] theorem halt_diag (s : State) : (halt s).diag = s.diag := rfl
@[simp] theorem halt_stack (s : State) (j : StackId) : (halt s).stack j = s.stack j := by cases j <;> rfl

/-! ### `await` -/

@[simp] theorem await_stack0 (s : State) (r : IoRequest) : (s.await r).stack0 = s.stack0 := rfl
@[simp] theorem await_stack1 (s : State) (r : IoRequest) : (s.await r).stack1 = s.stack1 := rfl
@[simp] theorem await_active (s : State) (r : IoRequest) : (s.await r).active = s.active := rfl
@[simp] theorem await_pc (s : State) (r : IoRequest) : (s.await r).pc = s.pc := rfl
@[simp] theorem await_strict (s : State) (r : IoRequest) : (s.await r).strict = s.strict := rfl
@[simp] theorem await_traceEn (s : State) (r : IoRequest) : (s.await r).traceEn = s.traceEn := rfl
@[simp] theorem await_stackDepth (s : State) (r : IoRequest) : (s.await r).stackDepth = s.stackDepth := rfl
@[simp] theorem await_codeForm (s : State) (r : IoRequest) : (s.await r).codeForm = s.codeForm := rfl
@[simp] theorem await_codeLen (s : State) (r : IoRequest) : (s.await r).codeLen = s.codeLen := rfl
@[simp] theorem await_code (s : State) (r : IoRequest) : (s.await r).code = s.code := rfl
@[simp] theorem await_status (s : State) (r : IoRequest) : (s.await r).status = s.status := rfl
@[simp] theorem await_io (s : State) (r : IoRequest) : (s.await r).io = some r := rfl
@[simp] theorem await_input (s : State) (r : IoRequest) : (s.await r).input = s.input := rfl
@[simp] theorem await_accepts (s : State) (r : IoRequest) : (s.await r).accepts = s.accepts := rfl
@[simp] theorem await_output (s : State) (r : IoRequest) : (s.await r).output = s.output := rfl
@[simp] theorem await_diag (s : State) (r : IoRequest) : (s.await r).diag = s.diag := rfl
@[simp] theorem await_stack (s : State) (r : IoRequest) (j : StackId) : (s.await r).stack j = s.stack j := by cases j <;> rfl

/-! ### `takeInput` -/

@[simp] theorem takeInput_stack0 (s : State) (l : List InAnswer) : (s.takeInput l).stack0 = s.stack0 := rfl
@[simp] theorem takeInput_stack1 (s : State) (l : List InAnswer) : (s.takeInput l).stack1 = s.stack1 := rfl
@[simp] theorem takeInput_active (s : State) (l : List InAnswer) : (s.takeInput l).active = s.active := rfl
@[simp] theorem takeInput_pc (s : State) (l : List InAnswer) : (s.takeInput l).pc = s.pc := rfl
@[simp] theorem takeInput_strict (s : State) (l : List InAnswer) : (s.takeInput l).strict = s.strict := rfl
@[simp] theorem takeInput_traceEn (s : State) (l : List InAnswer) : (s.takeInput l).traceEn = s.traceEn := rfl
@[simp] theorem takeInput_stackDepth (s : State) (l : List InAnswer) : (s.takeInput l).stackDepth = s.stackDepth := rfl
@[simp] theorem takeInput_codeForm (s : State) (l : List InAnswer) : (s.takeInput l).codeForm = s.codeForm := rfl
@[simp] theorem takeInput_codeLen (s : State) (l : List InAnswer) : (s.takeInput l).codeLen = s.codeLen := rfl
@[simp] theorem takeInput_code (s : State) (l : List InAnswer) : (s.takeInput l).code = s.code := rfl
@[simp] theorem takeInput_status (s : State) (l : List InAnswer) : (s.takeInput l).status = s.status := rfl
@[simp] theorem takeInput_io (s : State) (l : List InAnswer) : (s.takeInput l).io = none := rfl
@[simp] theorem takeInput_input (s : State) (l : List InAnswer) : (s.takeInput l).input = l := rfl
@[simp] theorem takeInput_accepts (s : State) (l : List InAnswer) : (s.takeInput l).accepts = s.accepts := rfl
@[simp] theorem takeInput_output (s : State) (l : List InAnswer) : (s.takeInput l).output = s.output := rfl
@[simp] theorem takeInput_diag (s : State) (l : List InAnswer) : (s.takeInput l).diag = s.diag := rfl
@[simp] theorem takeInput_stack (s : State) (l : List InAnswer) (j : StackId) : (s.takeInput l).stack j = s.stack j := by cases j <;> rfl

/-! ### `acceptOutput` -/

@[simp] theorem acceptOutput_stack0 (s : State) (b : Byte) : (s.acceptOutput b).stack0 = s.stack0 := rfl
@[simp] theorem acceptOutput_stack1 (s : State) (b : Byte) : (s.acceptOutput b).stack1 = s.stack1 := rfl
@[simp] theorem acceptOutput_active (s : State) (b : Byte) : (s.acceptOutput b).active = s.active := rfl
@[simp] theorem acceptOutput_pc (s : State) (b : Byte) : (s.acceptOutput b).pc = s.pc := rfl
@[simp] theorem acceptOutput_strict (s : State) (b : Byte) : (s.acceptOutput b).strict = s.strict := rfl
@[simp] theorem acceptOutput_traceEn (s : State) (b : Byte) : (s.acceptOutput b).traceEn = s.traceEn := rfl
@[simp] theorem acceptOutput_stackDepth (s : State) (b : Byte) : (s.acceptOutput b).stackDepth = s.stackDepth := rfl
@[simp] theorem acceptOutput_codeForm (s : State) (b : Byte) : (s.acceptOutput b).codeForm = s.codeForm := rfl
@[simp] theorem acceptOutput_codeLen (s : State) (b : Byte) : (s.acceptOutput b).codeLen = s.codeLen := rfl
@[simp] theorem acceptOutput_code (s : State) (b : Byte) : (s.acceptOutput b).code = s.code := rfl
@[simp] theorem acceptOutput_status (s : State) (b : Byte) : (s.acceptOutput b).status = s.status := rfl
@[simp] theorem acceptOutput_io (s : State) (b : Byte) : (s.acceptOutput b).io = none := rfl
@[simp] theorem acceptOutput_input (s : State) (b : Byte) : (s.acceptOutput b).input = s.input := rfl
@[simp] theorem acceptOutput_accepts (s : State) (b : Byte) : (s.acceptOutput b).accepts = s.accepts.map (· - 1) := rfl
@[simp] theorem acceptOutput_output (s : State) (b : Byte) : (s.acceptOutput b).output = s.output ++ [b] := rfl
@[simp] theorem acceptOutput_diag (s : State) (b : Byte) : (s.acceptOutput b).diag = s.diag := rfl
@[simp] theorem acceptOutput_stack (s : State) (b : Byte) (j : StackId) : (s.acceptOutput b).stack j = s.stack j := by cases j <;> rfl

/-! ### `hostAnswer` -/

@[simp] theorem hostAnswer_stack0 (s : State) (r : InAnswer) : (s.hostAnswer r).stack0 = s.stack0 := rfl
@[simp] theorem hostAnswer_stack1 (s : State) (r : InAnswer) : (s.hostAnswer r).stack1 = s.stack1 := rfl
@[simp] theorem hostAnswer_active (s : State) (r : InAnswer) : (s.hostAnswer r).active = s.active := rfl
@[simp] theorem hostAnswer_pc (s : State) (r : InAnswer) : (s.hostAnswer r).pc = s.pc := rfl
@[simp] theorem hostAnswer_strict (s : State) (r : InAnswer) : (s.hostAnswer r).strict = s.strict := rfl
@[simp] theorem hostAnswer_traceEn (s : State) (r : InAnswer) : (s.hostAnswer r).traceEn = s.traceEn := rfl
@[simp] theorem hostAnswer_stackDepth (s : State) (r : InAnswer) : (s.hostAnswer r).stackDepth = s.stackDepth := rfl
@[simp] theorem hostAnswer_codeForm (s : State) (r : InAnswer) : (s.hostAnswer r).codeForm = s.codeForm := rfl
@[simp] theorem hostAnswer_codeLen (s : State) (r : InAnswer) : (s.hostAnswer r).codeLen = s.codeLen := rfl
@[simp] theorem hostAnswer_code (s : State) (r : InAnswer) : (s.hostAnswer r).code = s.code := rfl
@[simp] theorem hostAnswer_status (s : State) (r : InAnswer) : (s.hostAnswer r).status = s.status := rfl
@[simp] theorem hostAnswer_io (s : State) (r : InAnswer) : (s.hostAnswer r).io = s.io := rfl
@[simp] theorem hostAnswer_input (s : State) (r : InAnswer) : (s.hostAnswer r).input = s.input ++ [r] := rfl
@[simp] theorem hostAnswer_accepts (s : State) (r : InAnswer) : (s.hostAnswer r).accepts = s.accepts := rfl
@[simp] theorem hostAnswer_output (s : State) (r : InAnswer) : (s.hostAnswer r).output = s.output := rfl
@[simp] theorem hostAnswer_diag (s : State) (r : InAnswer) : (s.hostAnswer r).diag = s.diag := rfl
@[simp] theorem hostAnswer_stack (s : State) (r : InAnswer) (j : StackId) : (s.hostAnswer r).stack j = s.stack j := by cases j <;> rfl

/-! ### `hostAccept` -/

@[simp] theorem hostAccept_stack0 (s : State) (n : Nat) : (s.hostAccept n).stack0 = s.stack0 := rfl
@[simp] theorem hostAccept_stack1 (s : State) (n : Nat) : (s.hostAccept n).stack1 = s.stack1 := rfl
@[simp] theorem hostAccept_active (s : State) (n : Nat) : (s.hostAccept n).active = s.active := rfl
@[simp] theorem hostAccept_pc (s : State) (n : Nat) : (s.hostAccept n).pc = s.pc := rfl
@[simp] theorem hostAccept_strict (s : State) (n : Nat) : (s.hostAccept n).strict = s.strict := rfl
@[simp] theorem hostAccept_traceEn (s : State) (n : Nat) : (s.hostAccept n).traceEn = s.traceEn := rfl
@[simp] theorem hostAccept_stackDepth (s : State) (n : Nat) : (s.hostAccept n).stackDepth = s.stackDepth := rfl
@[simp] theorem hostAccept_codeForm (s : State) (n : Nat) : (s.hostAccept n).codeForm = s.codeForm := rfl
@[simp] theorem hostAccept_codeLen (s : State) (n : Nat) : (s.hostAccept n).codeLen = s.codeLen := rfl
@[simp] theorem hostAccept_code (s : State) (n : Nat) : (s.hostAccept n).code = s.code := rfl
@[simp] theorem hostAccept_status (s : State) (n : Nat) : (s.hostAccept n).status = s.status := rfl
@[simp] theorem hostAccept_io (s : State) (n : Nat) : (s.hostAccept n).io = s.io := rfl
@[simp] theorem hostAccept_input (s : State) (n : Nat) : (s.hostAccept n).input = s.input := rfl
@[simp] theorem hostAccept_accepts (s : State) (n : Nat) : (s.hostAccept n).accepts = s.accepts.map (· + n) := rfl
@[simp] theorem hostAccept_output (s : State) (n : Nat) : (s.hostAccept n).output = s.output := rfl
@[simp] theorem hostAccept_diag (s : State) (n : Nat) : (s.hostAccept n).diag = s.diag := rfl
@[simp] theorem hostAccept_stack (s : State) (n : Nat) (j : StackId) : (s.hostAccept n).stack j = s.stack j := by cases j <;> rfl

/-! ### `noTrace` -/

@[simp] theorem noTrace_stack0 (s : State) : (s.noTrace).stack0 = s.stack0 := rfl
@[simp] theorem noTrace_stack1 (s : State) : (s.noTrace).stack1 = s.stack1 := rfl
@[simp] theorem noTrace_active (s : State) : (s.noTrace).active = s.active := rfl
@[simp] theorem noTrace_pc (s : State) : (s.noTrace).pc = s.pc := rfl
@[simp] theorem noTrace_strict (s : State) : (s.noTrace).strict = s.strict := rfl
@[simp] theorem noTrace_traceEn (s : State) : (s.noTrace).traceEn = false := rfl
@[simp] theorem noTrace_stackDepth (s : State) : (s.noTrace).stackDepth = s.stackDepth := rfl
@[simp] theorem noTrace_codeForm (s : State) : (s.noTrace).codeForm = s.codeForm := rfl
@[simp] theorem noTrace_codeLen (s : State) : (s.noTrace).codeLen = s.codeLen := rfl
@[simp] theorem noTrace_code (s : State) : (s.noTrace).code = s.code := rfl
@[simp] theorem noTrace_status (s : State) : (s.noTrace).status = s.status := rfl
@[simp] theorem noTrace_io (s : State) : (s.noTrace).io = s.io := rfl
@[simp] theorem noTrace_input (s : State) : (s.noTrace).input = s.input := rfl
@[simp] theorem noTrace_accepts (s : State) : (s.noTrace).accepts = s.accepts := rfl
@[simp] theorem noTrace_output (s : State) : (s.noTrace).output = s.output := rfl
@[simp] theorem noTrace_diag (s : State) : (s.noTrace).diag = s.diag.filter fun d => !isTrace d := rfl
@[simp] theorem noTrace_stack (s : State) (j : StackId) : (s.noTrace).stack j = s.stack j := by cases j <;> rfl

/-! ### `lenient` -/

@[simp] theorem lenient_stack0 (s : State) : (s.lenient).stack0 = s.stack0 := rfl
@[simp] theorem lenient_stack1 (s : State) : (s.lenient).stack1 = s.stack1 := rfl
@[simp] theorem lenient_active (s : State) : (s.lenient).active = s.active := rfl
@[simp] theorem lenient_pc (s : State) : (s.lenient).pc = s.pc := rfl
@[simp] theorem lenient_strict (s : State) : (s.lenient).strict = false := rfl
@[simp] theorem lenient_traceEn (s : State) : (s.lenient).traceEn = s.traceEn := rfl
@[simp] theorem lenient_stackDepth (s : State) : (s.lenient).stackDepth = s.stackDepth := rfl
@[simp] theorem lenient_codeForm (s : State) : (s.lenient).codeForm = s.codeForm := rfl
@[simp] theorem lenient_codeLen (s : State) : (s.lenient).codeLen = s.codeLen := rfl
@[simp] theorem lenient_code (s : State) : (s.lenient).code = s.code := rfl
@[simp] theorem lenient_status (s : State) : (s.lenient).status = s.status := rfl
@[simp] theorem lenient_io (s : State) : (s.lenient).io = s.io := rfl
@[simp] theorem lenient_input (s : State) : (s.lenient).input = s.input := rfl
@[simp] theorem lenient_accepts (s : State) : (s.lenient).accepts = s.accepts := rfl
@[simp] theorem lenient_output (s : State) : (s.lenient).output = s.output := rfl
@[simp] theorem lenient_diag (s : State) : (s.lenient).diag = s.diag := rfl
@[simp] theorem lenient_stack (s : State) (j : StackId) : (s.lenient).stack j = s.stack j := by cases j <;> rfl

/-! ### `setStack` -/

@[simp] theorem setStack_active (s : State) (k : StackId) (l : List Word) : (s.setStack k l).active = s.active := by
  cases k <;> rfl
@[simp] theorem setStack_pc (s : State) (k : StackId) (l : List Word) : (s.setStack k l).pc = s.pc := by
  cases k <;> rfl
@[simp] theorem setStack_strict (s : State) (k : StackId) (l : List Word) : (s.setStack k l).strict = s.strict := by
  cases k <;> rfl
@[simp] theorem setStack_traceEn (s : State) (k : StackId) (l : List Word) : (s.setStack k l).traceEn = s.traceEn := by
  cases k <;> rfl
@[simp] theorem setStack_stackDepth (s : State) (k : StackId) (l : List Word) : (s.setStack k l).stackDepth = s.stackDepth := by
  cases k <;> rfl
@[simp] theorem setStack_codeForm (s : State) (k : StackId) (l : List Word) : (s.setStack k l).codeForm = s.codeForm := by
  cases k <;> rfl
@[simp] theorem setStack_codeLen (s : State) (k : StackId) (l : List Word) : (s.setStack k l).codeLen = s.codeLen := by
  cases k <;> rfl
@[simp] theorem setStack_code (s : State) (k : StackId) (l : List Word) : (s.setStack k l).code = s.code := by
  cases k <;> rfl
@[simp] theorem setStack_status (s : State) (k : StackId) (l : List Word) : (s.setStack k l).status = s.status := by
  cases k <;> rfl
@[simp] theorem setStack_io (s : State) (k : StackId) (l : List Word) : (s.setStack k l).io = s.io := by
  cases k <;> rfl
@[simp] theorem setStack_input (s : State) (k : StackId) (l : List Word) : (s.setStack k l).input = s.input := by
  cases k <;> rfl
@[simp] theorem setStack_accepts (s : State) (k : StackId) (l : List Word) : (s.setStack k l).accepts = s.accepts := by
  cases k <;> rfl
@[simp] theorem setStack_output (s : State) (k : StackId) (l : List Word) : (s.setStack k l).output = s.output := by
  cases k <;> rfl
@[simp] theorem setStack_diag (s : State) (k : StackId) (l : List Word) : (s.setStack k l).diag = s.diag := by
  cases k <;> rfl

/-- Reading back the stack that was written. -/
@[simp] theorem setStack_stack_same (s : State) (k : StackId) (l : List Word) : (s.setStack k l).stack k = l := by
  cases k <;> rfl

/-- Writing one stack leaves the other alone. -/
theorem setStack_stack_other (s : State) {k j : StackId} (h : j ≠ k) (l : List Word) :
    (s.setStack k l).stack j = s.stack j := by
  cases k <;> cases j <;> first | rfl | exact absurd rfl h

/-- The accessor at each stack number, and the fields after a write of either stack. -/
@[simp] theorem stack_s0 (s : State) : s.stack .s0 = s.stack0 := rfl

@[simp] theorem stack_s1 (s : State) : s.stack .s1 = s.stack1 := rfl

@[simp] theorem setStack_s0_stack0 (s : State) (l : List Word) : (s.setStack .s0 l).stack0 = l := rfl

@[simp] theorem setStack_s0_stack1 (s : State) (l : List Word) : (s.setStack .s0 l).stack1 = s.stack1 := rfl

@[simp] theorem setStack_s1_stack0 (s : State) (l : List Word) : (s.setStack .s1 l).stack0 = s.stack0 := rfl

@[simp] theorem setStack_s1_stack1 (s : State) (l : List Word) : (s.setStack .s1 l).stack1 = l := rfl

/-- The last write of a stack counts. -/
@[simp] theorem setStack_setStack (s : State) (k : StackId) (l m : List Word) :
    (s.setStack k l).setStack k m = s.setStack k m := by
  cases k <;> rfl

/-- Writing back what is there changes nothing. -/
@[simp] theorem setStack_stack_self (s : State) (k : StackId) : s.setStack k (s.stack k) = s := by
  cases k <;> rfl

/-- Writes of the two stacks commute. -/
theorem setStack_comm (s : State) (l m : List Word) :
    (s.setStack .s1 m).setStack .s0 l = (s.setStack .s0 l).setStack .s1 m := rfl

/-! ### `traceOut` -/

@[simp] theorem traceOut_stack0 (i : Instr) (s : State) : (traceOut i s).stack0 = s.stack0 := by
  unfold traceOut; split <;> rfl
@[simp] theorem traceOut_stack1 (i : Instr) (s : State) : (traceOut i s).stack1 = s.stack1 := by
  unfold traceOut; split <;> rfl
@[simp] theorem traceOut_active (i : Instr) (s : State) : (traceOut i s).active = s.active := by
  unfold traceOut; split <;> rfl
@[simp] theorem traceOut_pc (i : Instr) (s : State) : (traceOut i s).pc = s.pc := by
  unfold traceOut; split <;> rfl
@[simp] theorem traceOut_strict (i : Instr) (s : State) : (traceOut i s).strict = s.strict := by
  unfold traceOut; split <;> rfl
@[simp] theorem traceOut_traceEn (i : Instr) (s : State) : (traceOut i s).traceEn = s.traceEn := by
  unfold traceOut; split <;> rfl
@[simp] theorem traceOut_stackDepth (i : Instr) (s : State) : (traceOut i s).stackDepth = s.stackDepth := by
  unfold traceOut; split <;> rfl
@[simp] theorem traceOut_codeForm (i : Instr) (s : State) : (traceOut i s).codeForm = s.codeForm := by
  unfold traceOut; split <;> rfl
@[simp] theorem traceOut_codeLen (i : Instr) (s : State) : (traceOut i s).codeLen = s.codeLen := by
  unfold traceOut; split <;> rfl
@[simp] theorem traceOut_code (i : Instr) (s : State) : (traceOut i s).code = s.code := by
  unfold traceOut; split <;> rfl
@[simp] theorem traceOut_status (i : Instr) (s : State) : (traceOut i s).status = s.status := by
  unfold traceOut; split <;> rfl
@[simp] theorem traceOut_io (i : Instr) (s : State) : (traceOut i s).io = s.io := by
  unfold traceOut; split <;> rfl
@[simp] theorem traceOut_input (i : Instr) (s : State) : (traceOut i s).input = s.input := by
  unfold traceOut; split <;> rfl
@[simp] theorem traceOut_accepts (i : Instr) (s : State) : (traceOut i s).accepts = s.accepts := by
  unfold traceOut; split <;> rfl
@[simp] theorem traceOut_output (i : Instr) (s : State) : (traceOut i s).output = s.output := by
  unfold traceOut; split <;> rfl
@[simp] theorem traceOut_stack (i : Instr) (s : State) (j : StackId) : (traceOut i s).stack j = s.stack j := by
  cases j <;> simp [State.stack]

/-- What tracing adds to the diagnostic sink: one record, where it is on (R205). -/
theorem traceOut_diag (i : Instr) (s : State) :
    (traceOut i s).diag = s.diag ++ if s.traceEn then [.trace (s.traceRecord i)] else [] := by
  unfold traceOut; split <;> simp

/-- Tracing on or off, everything but the diagnostic sink is as it was. -/
theorem traceOut_eq (i : Instr) (s : State) : traceOut i s = { s with diag := (traceOut i s).diag } := by
  unfold traceOut; split <;> rfl

end Sys2Proof.Machine
end

