-- ==== Sys2Proof/Laws/Ops.lean ====
section
/-! SUPPORT. For each shared operation, what it can do, said once: provers cite these and unfold nothing. -/

namespace Sys2Proof.Machine

/-! ### `Result` -/

@[simp] theorem Result.bind_ok {α β : Type} (a : α) (f : α → Result β) : (Result.ok a).bind f = f a := rfl

@[simp] theorem Result.bind_ended {α β : Type} (s : State) (f : α → Result β) :
    (Result.ended s : Result α).bind f = .ended s := rfl

@[simp] theorem Result.outcome_ok (s : State) : (Result.ok s).outcome = .next s := rfl

@[simp] theorem Result.outcome_ended (s : State) : (Result.ended s : Result State).outcome = .next s := rfl

/-- A result used as an outcome is always a next state. -/
theorem Result.outcome_next (r : Result State) : ∃ t, r.outcome = .next t ∧ (r = .ok t ∨ r = .ended t) := by
  cases r with
  | ok s => exact ⟨s, rfl, .inl rfl⟩
  | ended s => exact ⟨s, rfl, .inr rfl⟩

/-! ### Pop and push -/

/-- A pop of a non-empty stack takes its last word (R55). -/
theorem pop_concat {s : State} {k : StackId} {l : List Word} {v : Word} (h : s.stack k = l ++ [v]) :
    pop k s = .ok (v, s.setStack k l) := by
  unfold pop; rw [h]; simp

/-- A lenient pop of an empty stack gives −1 and leaves the stack empty (R55). -/
theorem pop_nil_lenient {s : State} {k : StackId} (h : s.stack k = []) (hs : s.strict = false) :
    pop k s = .ok (minusOne, s) := by
  unfold pop; rw [h]; simp [hs]

/-- A strict pop of an empty stack raises `StackUnderflow` (R55, R194). -/
theorem pop_nil_strict {s : State} {k : StackId} (h : s.stack k = []) (hs : s.strict = true) :
    pop k s = .ended (raise (.stackUnderflow s.pc k) s) := by
  unfold pop; rw [h]; simp [hs]

/-- Everything a pop can do. -/
theorem pop_cases (k : StackId) (s : State) :
    (∃ l v, s.stack k = l ++ [v] ∧ pop k s = .ok (v, s.setStack k l)) ∨
    (s.stack k = [] ∧ s.strict = false ∧ pop k s = .ok (minusOne, s)) ∨
    (s.stack k = [] ∧ s.strict = true ∧ pop k s = .ended (raise (.stackUnderflow s.pc k) s)) := by
  rcases List.eq_nil_or_concat (s.stack k) with h | ⟨l, v, h⟩
  · cases hs : s.strict with
    | false => exact .inr (.inl ⟨h, rfl, pop_nil_lenient h hs⟩)
    | true => exact .inr (.inr ⟨h, rfl, pop_nil_strict h hs⟩)
  · rw [List.concat_eq_append] at h
    exact .inl ⟨l, v, h, pop_concat h⟩

/-- A pop that answers leaves all but one stack: it is a write of that stack. -/
theorem pop_ok {k : StackId} {s s' : State} {v : Word} (h : pop k s = .ok (v, s')) :
    ∃ l, s' = s.setStack k l ∧ l.length = (s.stack k).length - 1 := by
  rcases pop_cases k s with ⟨l, w, hl, hp⟩ | ⟨hl, -, hp⟩ | ⟨-, -, hp⟩ <;> rw [hp] at h
  · injection h with h; injection h with hv hs
    exact ⟨l, hs.symm, by simp [hl]⟩
  · injection h with h; injection h with hv hs
    exact ⟨s.stack k, by simp [hs], by simp [hl]⟩
  · cases h

theorem depthReached_iff (d : Option Nat) (n : Nat) : depthReached d n = true ↔ d = some n := by
  simp [depthReached]

/-- A push on a stack that does not hold `STACK_DEPTH` words (R56). -/
theorem push_ok {s : State} {k : StackId} (h : s.stackDepth ≠ some (s.stack k).length) (v : Word) :
    push k v s = .ok (s.setStack k (s.stack k ++ [v])) := by
  unfold push; rw [if_neg (by simpa [depthReached_iff] using h)]

/-- A push on a full stack raises `StackOverflow` and leaves the stack unchanged (R56, R196). -/
theorem push_full {s : State} {k : StackId} (h : s.stackDepth = some (s.stack k).length) (v : Word) :
    push k v s = .ended (raise (.stackOverflow s.pc k) s) := by
  unfold push; rw [if_pos (by simpa [depthReached_iff] using h)]

/-- Everything a push can do. -/
theorem push_cases (k : StackId) (v : Word) (s : State) :
    (s.stackDepth ≠ some (s.stack k).length ∧ push k v s = .ok (s.setStack k (s.stack k ++ [v]))) ∨
    (s.stackDepth = some (s.stack k).length ∧ push k v s = .ended (raise (.stackOverflow s.pc k) s)) := by
  by_cases h : s.stackDepth = some (s.stack k).length
  · exact .inr ⟨h, push_full h v⟩
  · exact .inl ⟨h, push_ok h v⟩

/-! ### Output -/

theorem hostAccepts_iff (a : Option Nat) : hostAccepts a = true ↔ a ≠ some 0 := by
  simp [hostAccepts]

/-- Everything an output transaction can do (R172). -/
theorem outWrite_cases (b : Byte) (s : State) :
    (s.accepts ≠ some 0 ∧ outWrite b s = s.acceptOutput b) ∨
    (s.accepts = some 0 ∧ outWrite b s = s.await (.output b)) := by
  unfold outWrite
  by_cases h : s.accepts = some 0
  · exact .inr ⟨h, by rw [if_neg (by simp [hostAccepts_iff, h])]⟩
  · exact .inl ⟨h, by rw [if_pos (by simpa [hostAccepts_iff] using h)]⟩

/-! ### Fetch and the end of the cycle -/

/-- A fetch that finds an opcode finds it inside the code. -/
theorem fetch_op {s : State} {i : Instr} (h : fetch s = .op i) :
    s.pc < s.codeLen ∧ fetchAt s.codeForm s.code (u64 s.pc) = .op i := by
  unfold fetch at h
  split_ifs at h with hp
  exact ⟨(pastCode_false_iff _ _).mp (by simpa using hp), h⟩

theorem fetch_inside {s : State} (h : s.pc < s.codeLen) : fetch s = fetchAt s.codeForm s.code (u64 s.pc) := by
  unfold fetch; rw [if_neg (by simp [(pastCode_false_iff _ _).mpr h])]

/-- The fetch depends on `pc` and on the code, which no instruction writes, alone. -/
theorem fetch_congr {s t : State} (hp : t.pc = s.pc) (hl : t.codeLen = s.codeLen) (hf : t.codeForm = s.codeForm)
    (hc : t.code = s.code) : fetch t = fetch s := by
  unfold fetch; rw [hp, hl, hf, hc]

/-- Everything the increment and the range check can do (R29). -/
theorem advance_cases (p : Word) (s : State) :
    (s.pc + 1#64 < s.codeLen ∧ advance p s = s.setPc (s.pc + 1#64)) ∨
    (s.codeLen ≤ s.pc + 1#64 ∧ s.strict = false ∧ advance p s = s.setPc 0#64) ∨
    (s.codeLen ≤ s.pc + 1#64 ∧ s.strict = true ∧
      advance p s = raise (.outOfCode p (s.pc + 1#64)) (s.setPc (s.pc + 1#64))) := by
  unfold advance; rw [nextIndex_eq]
  by_cases h : s.codeLen ≤ s.pc + 1#64
  · rw [if_pos ((pastCode_iff _ _).mpr h)]
    cases hs : s.strict <;> simp [h]
  · rw [if_neg (by simpa [pastCode_iff] using h)]
    exact .inl ⟨BitVec.not_le.mp h, rfl⟩

/-- The cycle ends in `advance` where the machine still runs and waits for nothing, and changes nothing else. -/
theorem cycleEnd_cases (p : Word) (s : State) :
    (s.status = .running ∧ s.io = none ∧ cycleEnd p s = advance p s) ∨
    ((s.status ≠ .running ∨ s.io ≠ none) ∧ cycleEnd p s = s) := by
  unfold cycleEnd
  split
  · rename_i h1 h2; exact .inl ⟨h1, h2, rfl⟩
  · rename_i h
    refine .inr ⟨?_, rfl⟩
    by_cases hs : s.status = .running
    · exact .inr fun hi => h hs hi
    · exact .inl hs

@[simp] theorem finish_next (p : Word) (s : State) : finish p (.next s) = .next (cycleEnd p s) := rfl

/-! ### The steps a machine can make -/

/-- Every instruction answers a next state: no meaning of this machine ends in a fault or a refusal. -/
theorem exec_next (i : Instr) (s : State) : ∃ t, exec i s = .next t := by
  cases i <;> first
    | exact (Result.outcome_next _).imp fun _ h => h.1
    | exact ⟨_, rfl⟩
    | (simp only [exec, execInp]; split <;> first | exact ⟨_, rfl⟩ | exact (Result.outcome_next _).imp fun _ h => h.1)

/-- Everything a step can do: where it answers a next state, it runs the fetched instruction, raises
`InternalError`, or takes up an instruction that waits for the host. -/
theorem step_next_cases {s t : State} (h : step s = .next t) :
    s.status = .running ∧
    ((∃ i u, s.io = none ∧ s.codeLen ≠ 0#64 ∧ fetch s = .op i ∧ exec i (traceOut i s) = .next u ∧
        t = cycleEnd s.pc u) ∨
     (∃ b, s.io = none ∧ s.codeLen ≠ 0#64 ∧ fetch s = .badByte b ∧ t = raise (.internalError s.pc b) s) ∨
     (∃ u, s.io = some .input ∧ exec .inp s = .next u ∧ t = cycleEnd s.pc u) ∨
     (∃ b, s.io = some (.output b) ∧ t = cycleEnd s.pc (outWrite b s))) := by
  unfold step at h
  split at h
  · cases h
  · cases h
  · rename_i hs
    refine ⟨hs, ?_⟩
    split at h
    · rename_i hio
      unfold beginStep at h
      split_ifs at h with hl
      split at h
      · rename_i i hf
        obtain ⟨u, hu⟩ := exec_next i (traceOut i s)
        rw [hu, finish_next] at h
        injection h with h
        exact .inl ⟨i, u, hio, hl, hf, hu, h.symm⟩
      · rename_i b hf
        injection h with h
        exact .inr (.inl ⟨b, hio, hl, hf, h.symm⟩)
      · cases h
      · cases h
    · rename_i hio
      obtain ⟨u, hu⟩ := exec_next .inp s
      rw [hu, finish_next] at h
      injection h with h
      exact .inr (.inr (.inl ⟨u, hio, hu, h.symm⟩))
    · rename_i b hio
      injection h with h
      exact .inr (.inr (.inr ⟨b, hio, h.symm⟩))

end Sys2Proof.Machine
end

