-- ==== Sys2Proof/Laws/Operands.lean ====
section
/-! SUPPORT. What each operand form answers, once for all instructions that use it. -/

namespace Sys2Proof.Machine

/-- Everything a pop can do, as a write of the stack it pops, with what is left: the stack without its last word, or
the empty stack it found. -/
theorem pop_write (k : StackId) (s : State) :
    (∃ l v, s.stack k = l ++ [v] ∧ pop k s = .ok (v, s.setStack k l)) ∨
    (s.stack k = [] ∧ s.strict = false ∧ pop k s = .ok (minusOne, s.setStack k [])) ∨
    (s.stack k = [] ∧ s.strict = true ∧ pop k s = .ended (raise (.stackUnderflow s.pc k) (s.setStack k []))) := by
  have e : s.stack k = [] → s.setStack k [] = s := fun h => by
    have := setStack_stack_self s k; rwa [h] at this
  rcases pop_cases k s with ⟨l, v, h, hp⟩ | ⟨h, hs, hp⟩ | ⟨h, hs, hp⟩
  · exact .inl ⟨l, v, h, hp⟩
  · exact .inr (.inl ⟨h, hs, by rw [hp, e h]⟩)
  · exact .inr (.inr ⟨h, hs, by rw [hp, e h]⟩)

/-! ### Two operands -/

/-- Two words on the active stack: the second is the left operand (R85). -/
theorem binary_pair {s : State} {l : List Word} {a b : Word} (f : Word → Word → Word)
    (h : s.stack s.active = l ++ [a] ++ [b]) :
    binary f s = push s.active (f a b) (s.setStack s.active l) := by
  have h2 : pop s.active (s.setStack s.active (l ++ [a])) = .ok (a, s.setStack s.active l) := by
    rw [pop_concat (l := l) (v := a) (by simp)]; simp
  rw [binary, pop_concat h, Result.bind_ok]; dsimp only; rw [h2, Result.bind_ok]

/-- One word, lenient: the left operand is −1 (R129). -/
theorem binary_single {s : State} {b : Word} (f : Word → Word → Word) (hs : s.strict = false)
    (h : s.stack s.active = [b]) : binary f s = push s.active (f minusOne b) (s.setStack s.active []) := by
  rw [binary, pop_concat (l := []) (v := b) (by simpa using h), Result.bind_ok]; dsimp only
  rw [pop_nil_lenient (by simp) (by simpa using hs), Result.bind_ok]

/-- No word, lenient: both operands are −1 (R129). -/
theorem binary_empty {s : State} (f : Word → Word → Word) (hs : s.strict = false) (h : s.stack s.active = []) :
    binary f s = push s.active (f minusOne minusOne) s := by
  rw [binary, pop_nil_lenient h hs, Result.bind_ok]; dsimp only
  rw [pop_nil_lenient h hs, Result.bind_ok]

/-- Fewer than two words, strict: `StackUnderflow`, with the active stack empty (R129, R194). -/
theorem binary_short {s : State} (f : Word → Word → Word) (hs : s.strict = true)
    (h : (s.stack s.active).length < 2) :
    binary f s = .ended (raise (.stackUnderflow s.pc s.active) (s.setStack s.active [])) := by
  unfold binary
  rcases pop_write s.active s with ⟨l, v, hl, hp⟩ | ⟨_, h', _⟩ | ⟨_, _, hp⟩
  · have : l = [] := by rw [hl] at h; simpa using h
    subst this
    rw [hp, Result.bind_ok]; dsimp only
    rw [pop_nil_strict (by simp) (by simpa using hs)]; simp
  · rw [hs] at h'; cases h'
  · rw [hp]; rfl

/-! ### One operand -/

/-- A word on the active stack is replaced by its image. -/
theorem unary_top {s : State} {l : List Word} {a : Word} (f : Word → Word) (h : s.stack s.active = l ++ [a]) :
    unary f s = push s.active (f a) (s.setStack s.active l) := by
  rw [unary, pop_concat h, Result.bind_ok]

/-- No word, lenient: the image of −1. -/
theorem unary_empty {s : State} (f : Word → Word) (hs : s.strict = false) (h : s.stack s.active = []) :
    unary f s = push s.active (f minusOne) s := by
  rw [unary, pop_nil_lenient h hs, Result.bind_ok]

/-- No word, strict: `StackUnderflow`. -/
theorem unary_short {s : State} (f : Word → Word) (hs : s.strict = true) (h : s.stack s.active = []) :
    unary f s = .ended (raise (.stackUnderflow s.pc s.active) s) := by
  rw [unary, pop_nil_strict h hs, Result.bind_ended]

/-- Everything the form that pops one word can do. -/
theorem consume_cases (f : Word → State → State) (s : State) :
    (∃ l a, s.stack s.active = l ++ [a] ∧ consume f s = .ok (f a (s.setStack s.active l))) ∨
    (s.stack s.active = [] ∧ s.strict = false ∧ consume f s = .ok (f minusOne s)) ∨
    (s.stack s.active = [] ∧ s.strict = true ∧
      consume f s = .ended (raise (.stackUnderflow s.pc s.active) s)) := by
  unfold consume
  rcases pop_cases s.active s with ⟨l, v, hl, hp⟩ | ⟨hl, hs, hp⟩ | ⟨hl, hs, hp⟩ <;> rw [hp]
  · exact .inl ⟨l, v, hl, rfl⟩
  · exact .inr (.inl ⟨hl, hs, rfl⟩)
  · exact .inr (.inr ⟨hl, hs, rfl⟩)

/-! ### `=` and `~` -/

/-- The two pushes of `=`, where the first finds room. -/
theorem duplicate_top {s : State} {l : List Word} {x : Word} (h : s.stack s.active = l ++ [x])
    (hd : s.stackDepth ≠ some l.length) : duplicate s = push s.active x s := by
  rw [duplicate, pop_concat h, Result.bind_ok]; dsimp only
  rw [push_ok (by simpa using hd), Result.bind_ok]
  simp [← h]

/-- `=` on an empty lenient stack, where the first push finds room (D7). -/
theorem duplicate_empty {s : State} (hs : s.strict = false) (h : s.stack s.active = [])
    (hd : s.stackDepth ≠ some 0) :
    duplicate s = push s.active minusOne (s.setStack s.active [minusOne]) := by
  rw [duplicate, pop_nil_lenient h hs, Result.bind_ok]; dsimp only
  rw [push_ok (by simpa [h] using hd), Result.bind_ok]
  simp [h]

/-- `=` on an empty strict stack. -/
theorem duplicate_short {s : State} (hs : s.strict = true) (h : s.stack s.active = []) :
    duplicate s = .ended (raise (.stackUnderflow s.pc s.active) s) := by
  rw [duplicate, pop_nil_strict h hs, Result.bind_ended]

/-- The two pushes of `~`, where both find room. -/
theorem exchange_pushes {s : State} {x y : Word} (h0 : s.stackDepth ≠ some s.stack0.length)
    (h1 : s.stackDepth ≠ some s.stack1.length) :
    ((push .s1 x s).bind fun s' => push .s0 y s') =
      .ok { s with stack0 := s.stack0 ++ [y], stack1 := s.stack1 ++ [x] } := by
  rw [push_ok (by simpa [State.stack] using h1), Result.bind_ok,
    push_ok (by simpa [State.stack, State.setStack] using h0)]
  simp [State.stack, State.setStack]

end Sys2Proof.Machine
end

