-- ==== Sys2Proof/Laws/Exec.lean ====
section
/-! SUPPORT. A property that every write of the state keeps is kept by every instruction and by every step: the case
analysis over the instructions, done once. -/

namespace Sys2Proof.Machine

/-- The property is kept by each write an instruction can make of the state. -/
structure Preserved (P : State → Prop) : Prop where
  setStack : ∀ s k l, P s → P (s.setStack k l)
  raised : ∀ s f, P s → P (raise f s)
  setActive : ∀ s k, P s → P (s.setActive k)
  setPc : ∀ s w, P s → P (s.setPc w)
  halted : ∀ s, P s → P (halt s)
  await : ∀ s r, P s → P (s.await r)
  takeInput : ∀ s r rest, s.input = r :: rest → P s → P (s.takeInput rest)
  acceptOutput : ∀ s b, P s → P (s.acceptOutput b)

/-- A property of the state a result holds, whether the result goes on or has ended. -/
def Result.Holds {α : Type} (stateOf : α → State) (P : State → Prop) : Result α → Prop
  | .ok a => P (stateOf a)
  | .ended s => P s

theorem Result.holds_bind {α β : Type} {stateOf : α → State} {stateOf' : β → State} {P : State → Prop}
    {r : Result α} {f : α → Result β} (hr : r.Holds stateOf P)
    (hf : ∀ a, P (stateOf a) → (f a).Holds stateOf' P) : (r.bind f).Holds stateOf' P := by
  cases r with
  | ok a => exact hf a hr
  | ended s => exact hr

theorem Result.holds_outcome {P : State → Prop} {r : Result State} {t : State} (hr : r.Holds id P)
    (h : r.outcome = .next t) : P t := by
  cases r <;> simp at h <;> subst h <;> exact hr

theorem Preserved.pop {P : State → Prop} (h : Preserved P) {k : StackId} {s : State} (hs : P s) :
    (pop k s).Holds Prod.snd P := by
  rcases pop_cases k s with ⟨l, v, _, hp⟩ | ⟨_, _, hp⟩ | ⟨_, _, hp⟩ <;> rw [hp]
  · exact h.setStack _ _ _ hs
  · exact hs
  · exact h.raised _ _ hs

theorem Preserved.push {P : State → Prop} (h : Preserved P) {k : StackId} {v : Word} {s : State} (hs : P s) :
    (push k v s).Holds id P := by
  rcases push_cases k v s with ⟨_, hp⟩ | ⟨_, hp⟩ <;> rw [hp]
  · exact h.setStack _ _ _ hs
  · exact h.raised _ _ hs

theorem Preserved.outWrite {P : State → Prop} (h : Preserved P) {b : Byte} {s : State} (hs : P s) :
    P (outWrite b s) := by
  rcases outWrite_cases b s with ⟨_, hw⟩ | ⟨_, hw⟩ <;> rw [hw]
  · exact h.acceptOutput _ _ hs
  · exact h.await _ _ hs

theorem Preserved.consume {P : State → Prop} (h : Preserved P) {f : Word → State → State} {s : State} (hs : P s)
    (hf : ∀ a u, P u → P (f a u)) : (consume f s).Holds id P :=
  Result.holds_bind (h.pop hs) fun p hp => hf p.1 p.2 hp

theorem Preserved.binary {P : State → Prop} (h : Preserved P) {f : Word → Word → Word} {s : State} (hs : P s) :
    (binary f s).Holds id P :=
  Result.holds_bind (h.pop hs) fun _ h1 => Result.holds_bind (h.pop h1) fun _ h2 => h.push h2

theorem Preserved.unary {P : State → Prop} (h : Preserved P) {f : Word → Word} {s : State} (hs : P s) :
    (unary f s).Holds id P :=
  Result.holds_bind (h.pop hs) fun _ h1 => h.push h1

/-- An instruction keeps what every write keeps. -/
theorem exec_preserves {P : State → Prop} (h : Preserved P) {i : Instr} {s t : State} (hs : P s)
    (he : exec i s = .next t) : P t := by
  cases i
  case pushm1 => exact Result.holds_outcome (h.push hs) he
  case sws =>
    simp only [exec, execSws] at he
    injection he with he; subst he; exact h.setActive _ _ hs
  case xch =>
    exact Result.holds_outcome (Result.holds_bind (h.pop hs) fun _ h1 => Result.holds_bind (h.pop h1) fun _ h2 =>
      Result.holds_bind (h.push h2) fun _ h3 => h.push h3) he
  case dup =>
    exact Result.holds_outcome (Result.holds_bind (h.pop hs) fun _ h1 => Result.holds_bind (h.push h1) fun _ h2 =>
      h.push h2) he
  case jmp =>
    refine Result.holds_outcome (h.consume hs fun a u hu => ?_) he
    unfold jumpOrHalt; split
    · exact h.halted _ hu
    · exact h.setPc _ _ hu
  case inp =>
    simp only [exec, execInp] at he
    split at he
    · injection he with he; subst he; exact h.await _ _ hs
    · rename_i hi; exact Result.holds_outcome (h.push (h.takeInput _ _ _ hi hs)) he
  case out => exact Result.holds_outcome (h.consume hs fun _ _ hu => h.outWrite hu) he
  case shl0 => exact Result.holds_outcome (h.unary hs) he
  case shl1 => exact Result.holds_outcome (h.unary hs) he
  all_goals exact Result.holds_outcome (h.binary hs) he

/-- The end of a step keeps what every write keeps. -/
theorem cycleEnd_preserves {P : State → Prop} (h : Preserved P) {p : Word} {s : State} (hs : P s) :
    P (cycleEnd p s) := by
  rcases cycleEnd_cases p s with ⟨_, _, hx⟩ | ⟨_, hx⟩ <;> rw [hx]
  · rcases advance_cases p s with ⟨_, he⟩ | ⟨_, _, he⟩ | ⟨_, _, he⟩ <;> rw [he]
    · exact h.setPc _ _ hs
    · exact h.setPc _ _ hs
    · exact h.raised _ _ (h.setPc _ _ hs)
  · exact hs

/-- A step keeps what every write and a trace record keep. -/
theorem step_preserves {P : State → Prop} (h : Preserved P) (htr : ∀ i s, P s → P (traceOut i s)) {s t : State}
    (hs : P s) (he : step s = .next t) : P t := by
  rcases (step_next_cases he).2 with ⟨i, u, _, _, _, h4, rfl⟩ | ⟨b, _, _, _, rfl⟩ | ⟨u, _, h2, rfl⟩ | ⟨b, _, rfl⟩
  · exact cycleEnd_preserves h (exec_preserves h (htr _ _ hs) h4)
  · exact h.raised _ _ hs
  · exact cycleEnd_preserves h (exec_preserves h hs h2)
  · exact cycleEnd_preserves h (h.outWrite hs)

/-- Everything `@` can do (R160). -/
theorem execJmp_cases {s t : State} (h : exec .jmp s = .next t) :
    (∃ l a, s.stack s.active = l ++ [a] ∧ a ≠ minusOne ∧ t = (s.setStack s.active l).setPc (s.pc + a)) ∨
    (∃ l, s.stack s.active = l ++ [minusOne] ∧ t = halt (s.setStack s.active l)) ∨
    (s.stack s.active = [] ∧ s.strict = false ∧ t = halt s) ∨
    (s.stack s.active = [] ∧ s.strict = true ∧ t = raise (.stackUnderflow s.pc s.active) s) := by
  simp only [exec, execJmp] at h
  rcases consume_cases jumpOrHalt s with ⟨l, a, hl, hp⟩ | ⟨hl, hs, hp⟩ | ⟨hl, hs, hp⟩ <;>
    rw [hp] at h <;> simp only [Result.outcome_ok, Result.outcome_ended] at h <;> injection h with h
  · by_cases ha : a = minusOne
    · subst ha
      exact .inr (.inl ⟨l, hl, by rw [← h]; simp [jumpOrHalt, isHaltOffset]⟩)
    · exact .inl ⟨l, a, hl, ha, by rw [← h]; simp [jumpOrHalt, isHaltOffset, ha, branchBase_eq]⟩
  · exact .inr (.inr (.inl ⟨hl, hs, by rw [← h]; simp [jumpOrHalt, isHaltOffset]⟩))
  · exact .inr (.inr (.inr ⟨hl, hs, h.symm⟩))

/-- A step that runs an instruction, in one equation (R27). -/
theorem step_of_exec {s u : State} {i : Instr} (h1 : s.status = .running) (h2 : s.io = none) (h3 : fetch s = .op i)
    (h4 : exec i (traceOut i s) = .next u) : step s = .next (cycleEnd s.pc u) := by
  have hl := (fetch_op h3).1
  have h0 : s.codeLen ≠ 0#64 := by intro h; rw [h] at hl; simp at hl
  simp [step, h1, h2, beginStep, h0, h3, h4]

end Sys2Proof.Machine
end

