-- ==== Sys2Proof/Laws/PerInstr.lean ====
section
/-! SUPPORT. A law per instruction, as syntax: its symbol is in the alphabet at the position of its opcode, and
stands for it (30_encoding.md R50, R82). -/

namespace Sys2Proof.Laws.Alphabet

/-- The instruction is well-formed, its symbol is the alphabet's entry at its opcode, and decoding the symbol gives
the instruction back (R82). -/
def Statement (i : Instr) : Prop :=
  i.wellFormed = true ∧ alphabet[(encode i).toNat]? = some (symbol i) ∧ decodeSymbol (symbol i) = .ok i

theorem pushm1 : Statement .pushm1 := ⟨rfl, rfl, rfl⟩

theorem xor : Statement .xor := ⟨rfl, rfl, rfl⟩

theorem or : Statement .or := ⟨rfl, rfl, rfl⟩

theorem and : Statement .and := ⟨rfl, rfl, rfl⟩

theorem add : Statement .add := ⟨rfl, rfl, rfl⟩

theorem sub : Statement .sub := ⟨rfl, rfl, rfl⟩

theorem mul : Statement .mul := ⟨rfl, rfl, rfl⟩

theorem div : Statement .div := ⟨rfl, rfl, rfl⟩

theorem sws : Statement .sws := ⟨rfl, rfl, rfl⟩

theorem xch : Statement .xch := ⟨rfl, rfl, rfl⟩

theorem dup : Statement .dup := ⟨rfl, rfl, rfl⟩

theorem jmp : Statement .jmp := ⟨rfl, rfl, rfl⟩

theorem inp : Statement .inp := ⟨rfl, rfl, rfl⟩

theorem out : Statement .out := ⟨rfl, rfl, rfl⟩

theorem shl0 : Statement .shl0 := ⟨rfl, rfl, rfl⟩

theorem shl1 : Statement .shl1 := ⟨rfl, rfl, rfl⟩

end Sys2Proof.Laws.Alphabet
end

