-- ==== Sys2Proof/Tests/Slice0.lean ====
section
/-! SUPPORT. Small tests. Expected values are those of the spec: 95_test_vectors.md (section numbers given) and the
opcode map of 30_encoding.md R82. -/

namespace Sys2Proof.Tests

open Sys2Proof.Machine

/-! ### Helpers -/

/-- A machine with no code: for `exec`, which reads none. -/
def mach (strict : Bool) (depth : Option Nat) (a b : List Word) : State :=
  { State.reset with strict := strict, stackDepth := depth, stack0 := a, stack1 := b }

/-- The lenient machine with an unbounded active stack. -/
def lax (a : List Word) : State := mach false none a []

/-- The strict machine with an unbounded active stack. -/
def tight (a : List Word) : State := mach true none a []

/-- A machine with character-form code, at an index. -/
def atIndex (is : List Instr) (p : Nat) (strict : Bool) (a : List Word) : State :=
  { mach strict none a [] with
    codeForm := .characters, codeLen := BitVec.ofNat 64 is.length, code := Memory.load 0 (is.map symbol),
    pc := BitVec.ofNat 64 p }

/-- A machine with a packed image, at an index. -/
def inImage (img : List Byte) (p : Nat) (strict : Bool) (a : List Word) : State :=
  { mach strict none a [] with
    codeLen := BitVec.ofNat 64 (2 * img.length), code := Memory.load 0 img, pc := BitVec.ofNat 64 p }

/-- Does the outcome have a next state with this property? -/
def nextIs (o : Host.Outcome State Fault Refusal) (p : State → Bool) : Bool :=
  match o with
  | .next t => p t
  | .fault _ => false
  | .refused _ => false

/-- The instruction leaves this active stack, and the machine still runs. -/
def leaves (i : Instr) (s : State) (a : List Word) : Bool :=
  nextIs (exec i s) fun t => t.stack t.active == a && t.status == .running

/-- The instruction raises this fault and leaves this active stack. -/
def raises (i : Instr) (s : State) (f : VmFault) (a : List Word) : Bool :=
  nextIs (exec i s) fun t => t.status == .faulted f && t.stack t.active == a

/-- Source text from its characters, as ASCII codes. -/
def text (cs : List Char) : List Byte := cs.map fun c => BitVec.ofNat 8 c.toNat

/-! ### Well-formedness: an ill-formed term for each check -/

theorem test_code_empty_refused : resolvedWellFormed [] = false := by decide

theorem test_code_byte_x_refused : resolvedWellFormed (text ['!', 'x']) = false := by decide

theorem test_code_accepted : resolvedWellFormed (text ['!', '.']) = true := by decide

theorem test_image_empty_refused : imageWellFormed [] = false := by decide

theorem test_label_upper_refused : labelNameWellFormed (text ['a', 'B']) = false := by decide

theorem test_depth_zero_refused : LaunchParams.wellFormed { stackDepth := some 0 } = false := by decide

/-! ### Decoding: words written out from the opcode map (R82), and the packed examples (2.9) -/

theorem test_decode_words :
    [decode 0b0000#4, decode 0b0001#4, decode 0b0010#4, decode 0b0011#4, decode 0b0100#4, decode 0b0101#4,
      decode 0b0110#4, decode 0b0111#4] = [.pushm1, .xor, .or, .and, .add, .sub, .mul, .div] ∧
    [decode 0b1000#4, decode 0b1001#4, decode 0b1010#4, decode 0b1011#4, decode 0b1100#4, decode 0b1101#4,
      decode 0b1110#4, decode 0b1111#4] = [.sws, .xch, .dup, .jmp, .inp, .out, .shl0, .shl1] := by decide

theorem test_table_words :
    [decodeTableWord 4 0b1011, decodeTableWord 8 0b1011, decodeTableWord 8 0b1101] =
      [some .jmp, some .jmp, some .out] := by decide

/-- 2.9: `B0 0D FF` unpacks to `@!!.11`. -/
theorem test_unpack_bytes : unpack [0xB0#8, 0x0D#8, 0xFF#8] = [.jmp, .pushm1, .pushm1, .out, .shl1, .shl1] := by decide

/-- 2.9: `!0.` packs to `0E D0`. -/
theorem test_pack_odd : pack [.pushm1, .shl0, .out] = [0x0E#8, 0xD0#8] := by decide

/-- S6: the alphabet packs to `01 23 45 67 89 AB CD EF`. -/
theorem test_pack_alphabet :
    (decodeResolved (text ['!', '^', '|', '&', '+', '-', '*', '/', '$', '~', '=', '@', '?', '.', '0', '1'])).toOption.map
      pack = some [0x01#8, 0x23#8, 0x45#8, 0x67#8, 0x89#8, 0xAB#8, 0xCD#8, 0xEF#8] := by decide

theorem test_character_x_has_no_opcode : (decodeSymbol 0x78#8).toOption = none := by decide

theorem test_fetch_word_runs_from_reset :
    fetch (State.reset.withFetchWord 4 0b0100) = .op .add ∧ fetch (State.reset.withFetchWord 8 0b1111) = .op .shl1 := by
  decide

theorem test_fetch_word_steps :
    nextIs (step (State.reset.withFetchWord 4 0b0000)) (fun t => t.stack0 == [minusOne] && t.pc == 1#64) = true := by
  decide

/-! ### Two-operand ALU (2.1) -/

theorem test_xor : leaves .xor (lax [minWord, minusOne]) [maxWord] = true := by decide
theorem test_xor_single_lenient : leaves .xor (lax [5#64]) [BitVec.ofInt 64 (-6)] = true := by decide
theorem test_or : leaves .or (lax [12#64, 10#64]) [14#64] = true := by decide
theorem test_and : leaves .and (lax [minusOne, minWord]) [minWord] = true := by decide
theorem test_and_single_lenient : leaves .and (lax [5#64]) [5#64] = true := by decide
theorem test_add_wraps : leaves .add (lax [9#64, maxWord, 1#64]) [9#64, minWord] = true := by decide
theorem test_add_strict_single :
    raises .add (tight [5#64]) (.stackUnderflow 0#64 .s0) [] = true := by decide
theorem test_sub_order : leaves .sub (lax [3#64, 10#64]) [0xFFFFFFFFFFFFFFF9#64] = true := by decide
theorem test_sub_wraps : leaves .sub (lax [0#64, minWord]) [minWord] = true := by decide
theorem test_mul_low_half : leaves .mul (lax [maxWord, maxWord]) [1#64] = true := by decide
theorem test_mul_negative : leaves .mul (lax [BitVec.ofInt 64 (-3), 5#64]) [BitVec.ofInt 64 (-15)] = true := by decide
theorem test_div_truncates : leaves .div (lax [BitVec.ofInt 64 (-7), 2#64]) [BitVec.ofInt 64 (-3)] = true := by decide
theorem test_div_corners :
    (leaves .div (lax [minWord, minusOne]) [minWord] && leaves .div (lax [5#64, 0#64]) [0#64]) = true := by decide

/-! ### `!`, stacks, shifts (2.2, 2.3, 2.7) -/

theorem test_pushm1 : leaves .pushm1 (lax [3#64]) [3#64, minusOne] = true := by decide
theorem test_pushm1_full :
    raises .pushm1 (mach false (some 1) [3#64] []) (.stackOverflow 0#64 .s0) [3#64] = true := by decide
theorem test_sws :
    nextIs (exec .sws (lax [5#64])) (fun t => t.active == .s1 && t.stack0 == [5#64] && t.stack1 == []) = true := by decide
theorem test_xch_keeps_index :
    nextIs (exec .xch ((mach false none [1#64, 2#64] [9#64]).setActive .s1))
      (fun t => t.stack0 == [1#64, 9#64] && t.stack1 == [2#64] && t.active == .s1) = true := by decide
theorem test_xch_strict_second_empty :
    nextIs (exec .xch (mach true none [4#64] []))
      (fun t => t.status == .faulted (.stackUnderflow 0#64 .s1) && t.stack0 == []) = true := by decide
theorem test_dup_empty_lenient : leaves .dup (lax []) [minusOne, minusOne] = true := by decide
theorem test_dup_full :
    raises .dup (mach true (some 1) [5#64] []) (.stackOverflow 0#64 .s0) [5#64] = true := by decide
theorem test_shl0 : leaves .shl0 (lax [maxWord]) [BitVec.ofInt 64 (-2)] = true := by decide
theorem test_shl0_top_bit_lost : leaves .shl0 (lax [minWord]) [0#64] = true := by decide
theorem test_shl1 : leaves .shl1 (lax [minWord]) [1#64] = true := by decide
theorem test_shl1_strict_empty : raises .shl1 (tight []) (.stackUnderflow 0#64 .s0) [] = true := by decide

/-! ### Control transfer (2.4): `@` at 5 with `L = 10` -/

/-- Ten opcodes with `@` at 5. -/
def tenWithJump : List Instr :=
  [.pushm1, .pushm1, .pushm1, .pushm1, .pushm1, .jmp, .pushm1, .pushm1, .pushm1, .pushm1]

theorem test_jmp_back :
    nextIs (step (atIndex tenWithJump 5 true [BitVec.ofInt 64 (-6)])) (fun t => t.pc == 0#64 && t.status == .running) =
      true := by decide

theorem test_jmp_out_of_code :
    nextIs (step (atIndex tenWithJump 5 true [BitVec.ofInt 64 (-7)]))
      (fun t => t.status == .faulted (.outOfCode 5#64 0xFFFFFFFFFFFFFFFF#64)) = true := by decide

/-! ### Ports (2.5, 2.6) -/

theorem test_inp_byte :
    leaves .inp { lax [1#64] with input := [.byte 0xFF#8] } [1#64, 255#64] = true := by decide
theorem test_inp_err :
    leaves .inp { tight [] with input := [.err] } [minusOne] = true := by decide
theorem test_out_low_byte :
    nextIs (exec .out (lax [9#64, 0x1234#64])) (fun t => t.output == [0x34#8] && t.stack0 == [9#64]) = true := by decide
theorem test_out_empty_lenient : nextIs (exec .out (lax [])) (fun t => t.output == [0xFF#8]) = true := by decide

/-! ### The step cycle (2.8) -/

/-- `.` at the last index of `!.`, strict: `OutOfCode(1, 2)` after the byte went out. -/
theorem test_step_strict_end :
    nextIs (step (inImage [0x0D#8] 1 true [minusOne]))
      (fun t => t.status == .faulted (.outOfCode 1#64 2#64) && t.output == [0xFF#8]) = true := by decide

/-- The same, lenient: `pc = 0`. -/
theorem test_step_lenient_wrap :
    nextIs (step (inImage [0x0D#8] 1 false [minusOne])) (fun t => t.pc == 0#64 && t.status == .running) = true := by
  decide

/-- R200: a strict `+` at the last index with one word reports the underflow. -/
theorem test_step_priority :
    nextIs (step (inImage [0x04#8] 1 true [5#64])) (fun t => t.status == .faulted (.stackUnderflow 1#64 .s0)) = true := by
  decide

/-- Character-form `x` at 0: `InternalError(0, 0x78)`. -/
theorem test_step_internal_error :
    nextIs (step { lax [] with codeForm := .characters, codeLen := 1#64, code := [(0, 0x78#8)] })
      (fun t => t.status == .faulted (.internalError 0#64 0x78#8)) = true := by decide

/-- The second trace record of `!@` and the halt at 1. -/
theorem test_step_trace_halt :
    nextIs (step { inImage [0x0B#8] 1 true [minusOne] with traceEn := true })
      (fun t => t.status == .halted && t.pc == 1#64 &&
        t.diag == [.trace { active := .s0, stack0 := [minusOne], stack1 := [], pc := 1#64, instr := .jmp }]) = true := by
  decide

/-! ### The toolchain (2.10) -/

/-- X1. -/
theorem test_tokenize_label :
    (tokenize (text [':', 's', ' ', '!', '1', '@', 's'])).toOption =
      some [.script [], .label [0x73#8], .script [0x21#8, 0x31#8, 0x40#8]] := by decide

theorem test_lexical_error :
    (match tokenize ([0x21#8, 0x0A#8, 0x21#8, 0x21#8, 0xC3#8]) with
      | .error (.nonAscii l c) => l == 2 && c == 3
      | _ => false) = true := by decide

/-- `[1-2-3]` is −4, `[-9223372036854775807-1]` is `MIN`, and `[1++2]`, `[3a]`, `[]` are errors. -/
theorem test_literal_values :
    (evalBody [] (text ['1', '-', '2', '-', '3'])).toOption = some (BitVec.ofInt 64 (-4)) ∧
    (evalBody [] (text ['-', '9', '2', '2', '3', '3', '7', '2', '0', '3', '6', '8', '5', '4', '7', '7', '5', '8', '0',
      '7', '-', '1'])).toOption = some minWord := by decide

theorem test_literal_errors :
    (match evalBody [] (text ['-', '-', '1']), evalBody [] (text ['3', 'a']), evalBody [] [],
        evalBody [] (text ['1', '+']), evalBody [] (text ['a']) with
      | .error .consecutiveOperators, .error .malformedTerm, .error .empty, .error .operatorWithoutTerm,
        .error .undefinedLabel => true
      | _, _, _, _, _ => false) = true := by decide

/-- `!![x]:x.`: `x = 67`. -/
theorem test_label_after_literal :
    ((tokenize (text ['!', '!', '[', 'x', ']', ':', 'x', '.'])).toOption.map fun ts => (labelsOf ts).find [0x78#8]) =
      some (some 67) := by decide

/-- S3: `[65].` is `!`, 57 zeros, `1000001`, `.`. -/
theorem test_assemble_literal :
    (assemble (text ['[', '6', '5', ']', '.'])).toOption =
      some (0x21#8 :: (List.replicate 57 0x30#8 ++
        [0x31#8, 0x30#8, 0x30#8, 0x30#8, 0x30#8, 0x30#8, 0x31#8, 0x2E#8])) := by decide

/-! ### Witnesses: for each statement with hypotheses, a state and operands that meet them together. The names are
those of the statements; several clauses of one statement stand in one theorem. -/

/-- Capacity facts of a concrete machine. -/
theorem depthOk_of {s : State} {n : Nat} (h : s.stackDepth = some n)
    (hn : 1 ≤ n ∧ s.stack0.length ≤ n ∧ s.stack1.length ≤ n) : s.DepthOk := by
  intro d hd; rw [h] at hd; cases hd; exact hn

theorem depthOk_unbounded {s : State} (h : s.stackDepth = none) : s.DepthOk := by
  intro d hd; rw [h] at hd; cases hd

/-- A strict full machine, its second stack active. -/
def full2 (strict : Bool) (b : List Word) : State := { mach strict (some 2) [7#64] b with active := .s1 }

/-- Two operands: the pair fills the stack; one word; none; one word in strict mode. -/
theorem witness_two_operand :
    ((full2 true [3#64, 4#64]).DepthOk ∧ (full2 true [3#64, 4#64]).stack .s1 = [] ++ [3#64] ++ [4#64]) ∧
    ((full2 false [4#64]).DepthOk ∧ (full2 false [4#64]).strict = false ∧ (full2 false [4#64]).stack .s1 = [4#64]) ∧
    ((full2 false []).DepthOk ∧ (full2 false []).strict = false ∧ (full2 false []).stack .s1 = []) ∧
    ((full2 true [4#64]).DepthOk ∧ (full2 true [4#64]).strict = true ∧ ((full2 true [4#64]).stack .s1).length < 2) :=
  ⟨⟨depthOk_of rfl (by decide), by decide⟩, ⟨depthOk_of rfl (by decide), by decide⟩,
    ⟨depthOk_of rfl (by decide), by decide⟩, ⟨depthOk_of rfl (by decide), by decide⟩⟩

/-- One operand (`ShiftInZero`, `ShiftInOne`): a full stack; none, lenient; none, strict. -/
theorem witness_one_operand :
    ((mach true (some 1) [5#64] []).DepthOk ∧ (mach true (some 1) [5#64] []).stack .s0 = [] ++ [5#64]) ∧
    ((mach false (some 1) [] []).DepthOk ∧ (mach false (some 1) [] []).strict = false ∧
      (mach false (some 1) [] []).stack .s0 = []) ∧
    ((mach true (some 1) [] []).DepthOk ∧ (mach true (some 1) [] []).strict = true ∧
      (mach true (some 1) [] []).stack .s0 = []) :=
  ⟨⟨depthOk_of rfl (by decide), by decide⟩, ⟨depthOk_of rfl (by decide), by decide⟩,
    ⟨depthOk_of rfl (by decide), by decide⟩⟩

theorem witness_DivTruncates :
    (minWord = 0x8000000000000000#64 ∧ minusOne = BitVec.allOnes 64) ∧
    (minusOne ≠ 0#64 ∧ ¬(maxWord = 0x8000000000000000#64 ∧ minusOne = BitVec.allOnes 64)) ∧
    ((1#64 : Word) ≠ 0#64 ∧ ¬(minWord = 0x8000000000000000#64 ∧ 1#64 = BitVec.allOnes 64)) := by decide

theorem witness_PackUnpackInverse : ([] : List Instr).length % 2 = 0 ∧ [Instr.pushm1, .shl1].length % 2 = 0 := by decide

theorem witness_PackOddAppendsPush : [Instr.inp].length % 2 = 1 := by decide

/-- The last index of a two-opcode image. -/
theorem witness_FetchOfImageIsUnpack :
    ∃ s, launchPacked {} [0x0D#8] = .ok s ∧ (unpack [0x0D#8])[1]? = some .out := ⟨_, rfl, by decide⟩

/-- A symbol and a byte outside the alphabet. -/
theorem witness_FetchOfCharacters :
    ∃ s, launchResolved {} [0x21#8, 0x78#8] = .ok s ∧ [0x21#8, 0x78#8][0]? = some 0x21#8 ∧
      0x21#8 = symbol .pushm1 ∧ [0x21#8, 0x78#8][1]? = some 0x78#8 ∧ 0x78#8 ∉ alphabet :=
  ⟨_, rfl, by decide⟩

theorem witness_PushMinusOne :
    (mach true (some 2) [5#64] []).stackDepth ≠ some ((mach true (some 2) [5#64] []).stack .s0).length ∧
    (mach true (some 1) [5#64] []).stackDepth = some ((mach true (some 1) [5#64] []).stack .s0).length := by decide

theorem witness_DupDivTestsZero :
    (mach true (some 2) [0#64] []).status = .running ∧ (mach true (some 2) [0#64] []).io = none ∧
    (mach true (some 2) [0#64] []).DepthOk ∧ (mach true (some 2) [0#64] []).stack .s0 = [] ++ [0#64] ∧
    (mach true (some 2) [0#64] []).stackDepth ≠ some (([] : List Word).length + 1) :=
  ⟨rfl, rfl, depthOk_of rfl (by decide), rfl, by decide⟩

theorem witness_EffectsBeforeFaultStay :
    (Instr.div ∈ [Instr.xor, .or, .and, .add, .sub, .mul, .div] ∧ (tight [5#64]).strict = true ∧
      (tight [5#64]).stack .s0 = [5#64]) ∧
    ((tight [4#64]).stack0 = [] ++ [4#64] ∧ (tight [4#64]).stack1 = []) ∧
    (({ mach true (some 1) [3#64] [] with input := [.byte 7#8] } : State).input = .byte 7#8 :: [] ∧
      (mach true (some 1) [3#64] []).stackDepth = some ((mach true (some 1) [3#64] []).stack .s0).length) := by decide

theorem witness_SwitchInvertsIndex :
    (lax []).active = .s0 ∧ (full2 true []).active = .s1 ∧ (lax []).status = .running ∧ (lax []).io = none ∧
      Instr.xch ≠ .sws ∧ ∃ t, exec .xch (lax []) = .next t := ⟨rfl, rfl, rfl, rfl, by decide, _, rfl⟩

theorem witness_ExchangeTops :
    ((mach true (some 1) [1#64] [2#64]).DepthOk ∧ (mach true (some 1) [1#64] [2#64]).stack0 = [] ++ [1#64] ∧
      (mach true (some 1) [1#64] [2#64]).stack1 = [] ++ [2#64]) ∧
    ((mach false (some 1) [] [2#64]).DepthOk ∧ (mach false (some 1) [] [2#64]).stack0 = [] ∧
      (mach false (some 1) [] [2#64]).stack1 = [] ++ [2#64] ∧ (mach false (some 1) [] [2#64]).strict = false) ∧
    ((mach false (some 1) [1#64] []).DepthOk ∧ (mach false (some 1) [1#64] []).stack0 = [] ++ [1#64] ∧
      (mach false (some 1) [1#64] []).stack1 = []) ∧
    ((mach false (some 1) [] []).DepthOk ∧ (mach false (some 1) [] []).stack0 = [] ∧
      (mach false (some 1) [] []).stack1 = []) ∧
    ((mach true (some 1) [] []).DepthOk ∧ (mach true (some 1) [] []).strict = true ∧
      (mach true (some 1) [] []).stack0 = []) ∧
    ((mach true (some 1) [1#64] []).DepthOk ∧ (mach true (some 1) [1#64] []).stack0 ≠ [] ∧
      (mach true (some 1) [1#64] []).stack1 = []) :=
  ⟨⟨depthOk_of rfl (by decide), by decide⟩, ⟨depthOk_of rfl (by decide), by decide⟩,
    ⟨depthOk_of rfl (by decide), by decide⟩, ⟨depthOk_of rfl (by decide), by decide⟩,
    ⟨depthOk_of rfl (by decide), by decide⟩, ⟨depthOk_of rfl (by decide), by decide⟩⟩

theorem witness_DuplicateTop :
    ((mach true (some 2) [5#64] []).DepthOk ∧ (mach true (some 2) [5#64] []).stack .s0 = [] ++ [5#64] ∧
      (mach true (some 2) [5#64] []).stackDepth ≠ some (([] : List Word).length + 1)) ∧
    ((mach false (some 2) [] []).DepthOk ∧ (mach false (some 2) [] []).strict = false ∧
      (mach false (some 2) [] []).stack .s0 = [] ∧ (mach false (some 2) [] []).stackDepth ≠ some 1) ∧
    ((mach true (some 1) [5#64] []).DepthOk ∧ (mach true (some 1) [5#64] []).stack .s0 = [] ++ [5#64] ∧
      (mach true (some 1) [5#64] []).stackDepth = some (([] : List Word).length + 1)) ∧
    ((mach false (some 1) [] []).DepthOk ∧ (mach false (some 1) [] []).strict = false ∧
      (mach false (some 1) [] []).stack .s0 = [] ∧ (mach false (some 1) [] []).stackDepth = some 1) ∧
    ((mach true (some 1) [] []).DepthOk ∧ (mach true (some 1) [] []).strict = true ∧
      (mach true (some 1) [] []).stack .s0 = []) :=
  ⟨⟨depthOk_of rfl (by decide), by decide⟩, ⟨depthOk_of rfl (by decide), by decide⟩,
    ⟨depthOk_of rfl (by decide), by decide⟩, ⟨depthOk_of rfl (by decide), by decide⟩,
    ⟨depthOk_of rfl (by decide), by decide⟩⟩

theorem witness_JumpOrHaltByOffset :
    ((tight [0#64]).stack .s0 = [] ++ [0#64] ∧ (0#64 : Word) ≠ BitVec.allOnes 64) ∧
    (tight [minusOne]).stack .s0 = [] ++ [BitVec.allOnes 64] ∧
    ((lax []).strict = false ∧ (lax []).stack .s0 = []) ∧ ((tight []).strict = true ∧ (tight []).stack .s0 = []) := by
  decide

/-- `@` at 5 of 10: the last index inside (offset 3, next 9), and one past it (offset 4, next 10), in both modes. -/
theorem witness_BranchAddress :
    (∀ strict, (atIndex tenWithJump 5 strict [3#64]).status = .running ∧
      (atIndex tenWithJump 5 strict [3#64]).io = none ∧ fetch (atIndex tenWithJump 5 strict [3#64]) = .op .jmp ∧
      (atIndex tenWithJump 5 strict [3#64]).stack .s0 = [] ++ [3#64]) ∧
    (∀ strict, fetch (atIndex tenWithJump 5 strict [4#64]) = .op .jmp ∧
      (atIndex tenWithJump 5 strict [4#64]).stack .s0 = [] ++ [4#64]) ∧
    (3#64 : Word) ≠ BitVec.allOnes 64 ∧ (4#64 : Word) ≠ BitVec.allOnes 64 ∧
    (5 + 3 + 1) % 2 ^ 64 < (atIndex tenWithJump 5 true [3#64]).codeLen.toNat ∧
    (atIndex tenWithJump 5 true [4#64]).codeLen.toNat ≤ (5 + 4 + 1) % 2 ^ 64 := by decide

/-- Signed targets 0 and 9 inside, −1 and 10 outside. -/
theorem witness_SignedBranchTarget :
    ([BitVec.ofInt 64 (-6), 3#64, BitVec.ofInt 64 (-7), 4#64].all fun a =>
      decide (fetch (atIndex tenWithJump 5 true [a]) = .op .jmp ∧
        (atIndex tenWithJump 5 true [a]).stack .s0 = [] ++ [a] ∧ a ≠ BitVec.allOnes 64)) = true ∧
    ([BitVec.ofInt 64 (-6), (3#64 : Word)].all fun a => decide ((0 : Int) ≤ 5 + 1 + a.toInt ∧ 5 + 1 + a.toInt < 10)) =
      true ∧
    ([BitVec.ofInt 64 (-7), (4#64 : Word)].all fun a =>
      decide (¬((0 : Int) ≤ 5 + 1 + a.toInt ∧ 5 + 1 + a.toInt < 10))) = true := by decide

theorem witness_InputPushesAnswer :
    ∀ r ∈ [InAnswer.byte 0xFF#8, .eof, .err],
      ({ tight [] with input := [r] } : State).input = r :: [] ∧
      (tight []).stackDepth ≠ some ((tight []).stack .s0).length ∧
      (mach true (some 1) [3#64] []).stackDepth = some ((mach true (some 1) [3#64] []).stack .s0).length := by decide

theorem witness_InputWaitsForHost :
    ({ tight [] with io := some .input } : State).status = .running ∧
    ({ tight [] with io := some .input } : State).io = some .input ∧ (tight []).input = [] ∧
    (tight []).stackDepth ≠ some ((tight []).stack .s0).length ∧
    (({ mach true (some 1) [3#64] [] with io := some .input } : State).status = .running ∧
      ({ mach true (some 1) [3#64] [] with io := some .input } : State).io = some .input ∧
      (mach true (some 1) [3#64] []).input = [] ∧
      (mach true (some 1) [3#64] []).stackDepth = some ((mach true (some 1) [3#64] []).stack .s0).length) := by decide

theorem witness_OutputWritesLowByte :
    ((tight [256#64]).accepts ≠ some 0 ∧ (tight [256#64]).stack .s0 = [] ++ [256#64]) ∧
    (({ lax [] with accepts := some 1 } : State).accepts ≠ some 0 ∧ (lax []).strict = false ∧
      (lax []).stack .s0 = []) ∧
    ((tight []).strict = true ∧ (tight []).stack .s0 = []) := by decide

theorem witness_OutputWaitsForHost :
    (({ tight [65#64] with accepts := some 0 } : State).accepts = some 0 ∧ (tight [65#64]).stack .s0 = [] ++ [65#64]) ∧
    (({ lax [] with accepts := some 0 } : State).accepts = some 0 ∧ (lax []).strict = false ∧
      (lax []).stack .s0 = []) ∧
    (({ tight [] with accepts := some 0, io := some (.output 65#8) } : State).status = .running ∧
      ({ tight [] with accepts := some 0, io := some (.output 65#8) } : State).io = some (.output 65#8)) := by decide

/-- Every instruction answers a next state, where it completes and where it faults: the frames' hypothesis. -/
theorem witness_frames : ∀ i ∈ [Instr.pushm1, .xor, .or, .and, .add, .sub, .mul, .div, .sws, .xch, .dup, .jmp, .inp,
    .out, .shl0, .shl1], (∃ t, exec i (tight [1#64, 2#64]) = .next t) ∧ ∃ t, exec i (tight []) = .next t :=
  fun i _ => ⟨exec_next i _, exec_next i _⟩

/-- An even and an odd index of a packed image, and a character. -/
theorem witness_StepRunsDecodedInstruction :
    (∀ p ∈ [0, 1], (inImage [0x0D#8] p true []).status = .running ∧ (inImage [0x0D#8] p true []).io = none ∧
      (inImage [0x0D#8] p true []).pc < (inImage [0x0D#8] p true []).codeLen ∧
      (inImage [0x0D#8] p true []).codeForm = .packed) ∧
    (Memory.read (inImage [0x0D#8] 0 true []).code 0 = some 0x0D#8 ∧ decode ((0x0D#8).extractLsb' 4 4) = .pushm1 ∧
      decode ((0x0D#8).extractLsb' 0 4) = .out) ∧
    ((atIndex [.jmp] 0 true []).codeForm = .characters ∧
      Memory.read (atIndex [.jmp] 0 true []).code 0 = some (symbol .jmp) ∧
      (atIndex [.jmp] 0 true []).pc < (atIndex [.jmp] 0 true []).codeLen) := by decide

/-- `PcAdvancesByOne`, `RangeCheckEndsStep`, `TraceRecordFirst`: steps that go on inside the code, that wrap, that
jump, that halt, that fault in the instruction, and that fault at the range check. -/
theorem witness_steps :
    nextIs (step (inImage [0x0D#8] 0 true [])) (fun t => t.status == .running && t.io == none && t.pc == 1#64) = true ∧
    nextIs (step (inImage [0x0D#8] 1 false [])) (fun t => t.status == .running && t.io == none && t.pc == 0#64) = true ∧
    nextIs (step (atIndex tenWithJump 5 true [3#64])) (fun t => t.status == .running && t.pc == 9#64) = true ∧
    nextIs (step (inImage [0xB0#8] 0 true [minusOne])) (fun t => t.status == .halted) = true ∧
    nextIs (step (inImage [0xB0#8] 0 true [])) (fun t => t.status == .faulted (.stackUnderflow 0#64 .s0)) = true ∧
    nextIs (step (inImage [0x0D#8] 1 true [1#64])) (fun t => t.status == .faulted (.outOfCode 1#64 2#64)) = true := by
  decide

/-- The hypotheses on the executed instruction, at the last index and before it, in both modes. -/
theorem witness_RangeCheckEndsStep :
    ∀ p ∈ [0, 1], ∀ strict ∈ [true, false],
      (inImage [0x00#8] p strict []).status = .running ∧ (inImage [0x00#8] p strict []).io = none ∧
      fetch (inImage [0x00#8] p strict []) = .op .pushm1 ∧
      nextIs (exec .pushm1 (traceOut .pushm1 (inImage [0x00#8] p strict [])))
        (fun u => u.status == .running && u.io == none && u.pc.toNat == p) = true := by decide

theorem witness_NonAlphabetByteFaults :
    ({ lax [] with codeForm := .characters, codeLen := 1#64, code := [(0, 0x78#8)] } : State).pc < 1#64 ∧
    Memory.read [(0, 0x78#8)] 0 = some 0x78#8 ∧ 0x78#8 ∉ alphabet ∧ (lax []).status = .running ∧ (lax []).io = none := by
  decide

theorem witness_StoppedIsFinal :
    (halt (lax [])).status ≠ .running ∧ (raise (.stackUnderflow 0#64 .s0) (lax [])).status ≠ .running := by decide

/-- A step that inverts `i`, and one that does not. -/
theorem witness_OnlySwitchWritesIndex :
    nextIs (step (inImage [0x80#8] 0 true [])) (fun t => t.active != .s0) = true ∧
    nextIs (step (inImage [0x08#8] 0 true [])) (fun t => t.active == .s0) = true ∧
    (mach true (some 1) [1#64] [2#64]).DepthOk ∧ (mach true (some 1) [1#64] [2#64]).stack0 = [] ++ [1#64] ∧
    (mach true (some 1) [1#64] [2#64]).stack1 = [] ++ [2#64] :=
  ⟨by decide, by decide, depthOk_of rfl (by decide), rfl, rfl⟩

/-- `StepKeepsCodeAndConfig`, `StreamsOnlyGrow`: a step that writes a byte, and one that takes an answer. -/
theorem witness_streams :
    nextIs (step (inImage [0xDC#8] 0 true [65#64])) (fun t => t.output == [65#8]) = true ∧
    nextIs (step { inImage [0xCD#8] 0 true [] with input := [.eof] }) (fun t => t.input == []) = true := by decide

/-- A halt on −1 in strict mode, and one on an empty lenient stack. -/
theorem witness_HaltOnlyByJumpMinusOne :
    nextIs (step (inImage [0xB0#8] 0 true [minusOne])) (fun t => t.status == .halted) = true ∧
    nextIs (step (inImage [0xB0#8] 0 false [])) (fun t => t.status == .halted) = true := by decide

/-- Tracing on, the instruction fetched and a next state; and tracing off. -/
theorem witness_TraceRecordFirst :
    ({ inImage [0x0B#8] 0 true [] with traceEn := true } : State).io = none ∧
    fetch { inImage [0x0B#8] 0 true [] with traceEn := true } = .op .pushm1 ∧
    nextIs (step { inImage [0x0B#8] 0 true [] with traceEn := true }) (fun t => t.diag.length == 1) = true ∧
    nextIs (step (inImage [0x0B#8] 0 true [])) (fun t => t.diag == []) = true := by decide

theorem witness_LaunchGivesResetState :
    [0x0D#8] ≠ ([] : List Byte) ∧ (some 1 : Option Nat) ≠ some 0 ∧ 2 * [0x0D#8].length < 2 ^ 64 := by decide

theorem witness_EmptyCodeRefused :
    State.reset.status = .running ∧ State.reset.io = none ∧ State.reset.codeLen = 0#64 := by decide

theorem witness_InvariantAtLaunch :
    (∃ s, launchPacked { stackDepth := some 1 } [0x0D#8] = .ok s) ∧ ∃ s, launchResolved {} [0x21#8] = .ok s :=
  ⟨⟨_, rfl⟩, ⟨_, rfl⟩⟩

/-- A packed machine of two opcodes meets the invariant. -/
theorem inv_of_image (p : Nat) (hp : p < 2) (strict : Bool) (b : Byte) (a : List Word) :
    (inImage [b] p strict a).Inv where
  code := ⟨rfl, fun n => by
    simp only [inImage, mach, State.reset, Memory.load, Memory.read, Memory.unlisted, codeBytes]
    by_cases h : 0 = n
    · simp [← h]
    · simp [h]; omega, fun _ => by
    show (2#64 : Word).toNat % 2 = 0; decide⟩
  depth := depthOk_unbounded rfl
  pcInCode := fun _ _ => by
    show BitVec.ofNat 64 p < 2#64
    rw [BitVec.lt_def, BitVec.toNat_ofNat, Nat.mod_eq_of_lt (by omega)]; exact hp
  wait := fun r h => by cases h

/-- `InvariantKeptByStep`, `RunningMachineSteps`: the invariant, running, with code, and a next state. -/
theorem witness_InvariantKeptByStep :
    (inImage [0x0D#8] 1 true [1#64]).Inv ∧ (inImage [0x0D#8] 1 true [1#64]).status = .running ∧
    (inImage [0x0D#8] 1 true [1#64]).codeLen ≠ 0#64 ∧ ∃ t, step (inImage [0x0D#8] 1 true [1#64]) = .next t :=
  ⟨inv_of_image 1 (by omega) _ _ _, rfl, by decide, _, rfl⟩

theorem witness_LenientNeverAborts :
    (inImage [0x0B#8] 1 false []).Inv ∧ (inImage [0x0B#8] 1 false []).CodeInAlphabet ∧
    (inImage [0x0B#8] 1 false []).strict = false ∧ (inImage [0x0B#8] 1 false []).stackDepth = none ∧
    (inImage [0x0B#8] 1 false []).status = .running ∧ (inImage [0x0B#8] 1 false []).codeLen ≠ 0#64 :=
  ⟨inv_of_image 1 (by omega) _ _ _, (fun h => by cases h), rfl, rfl, rfl, by decide⟩

/-- Each outcome of a step with the trace on: a next state, a fault, a refusal. -/
theorem witness_TraceHasNoEffect :
    (∃ t, step { inImage [0x0B#8] 1 true [] with traceEn := true } = .next t) ∧
    step { halt (lax []) with traceEn := true } = .fault .stopped ∧
    step { lax [] with traceEn := true } = .refused .emptyCode := ⟨⟨_, rfl⟩, rfl, rfl⟩

/-- A strict step that does not fault, and a lenient step. -/
theorem witness_StrictDiffersOnlyInFaults :
    nextIs (step (inImage [0x0D#8] 0 true [])) (fun t => !t.status.isStrictFault) = true ∧
    (inImage [0x0D#8] 1 false []).strict = false ∧ ∃ t, step (inImage [0x0D#8] 1 false []) = .next t :=
  ⟨by decide, rfl, _, rfl⟩

/-- The first and the last bit of an expansion. -/
theorem witness_ExpansionShape : (0 < 64 ∧ 63 < 64) ∧ (expand 1#64)[64]? = some (symbol .shl1) ∧ (expand 1#64)[1]? = some (symbol .shl0) := by
  decide

theorem witness_ExpansionPushesValue :
    (tight []).status = .running ∧ (tight []).io = none ∧
    (mach true (some 1) [] []).stackDepth ≠ some ((mach true (some 1) [] []).stack .s0).length ∧
    (mach true (some 1) [3#64] []).stackDepth = some ((mach true (some 1) [3#64] []).stack .s0).length := by decide

/-- A declared name, once, after two opcodes. -/
theorem witness_LabelIsCodeOffset :
    Token.label [0x78#8] ∉ [Token.script [0x2E#8]] ∧
    (passTwo (labelsOf ([.script [0x21#8, 0x21#8]] ++ [.label [0x78#8]] ++ [.script [0x2E#8]]))
      [.script [0x21#8, 0x21#8]]).toOption = some [0x21#8, 0x21#8] := by decide

theorem witness_AssembledCodeInAlphabet : ∃ c, assemble (text ['!', 'x', '#', '.']) = .ok c := ⟨_, rfl⟩

theorem witness_NonAsciiByteReported :
    (∀ x ∈ [0x21#8, 0x0D#8, 0x7F#8], x < 0x80#8) ∧ (0x80#8 : Byte) ≤ 0x80#8 := by decide

end Sys2Proof.Tests
end

/-! # How the machine's operations act on a state: the rules the statements about state rest on -/

namespace Sys2Proof.Machine

open Sys2Proof.Rules

/-! ### The four kinds of instruction beside those that only pop and push -/

/-- The twelve instructions that do nothing but pop and push: those on the active stack alone, and `~`. -/
def stackInstrs : List Instr := .xch :: activeStackInstrs

theorem instr_kinds (i : Instr) : i ∈ stackInstrs ∨ i = .sws ∨ i = .jmp ∨ i = .inp ∨ i = .out := by
  cases i <;> decide

/-! ### Pops and pushes as steps of a program: postconditions -/

/-- The postcondition of a result: `Q` of the value it goes on with, `E` of the state in which a `raise` ended it. -/
def Result.Sat {α : Type} (E : State → Prop) (Q : α → Prop) : Result α → Prop
  | .ok a => Q a
  | .ended s => E s

theorem Result.sat_bind {α β : Type} {E : State → Prop} {Q : α → Prop} {Q' : β → Prop} {r : Result α}
    {f : α → Result β} (hr : r.Sat E Q) (hf : ∀ a, Q a → (f a).Sat E Q') : (r.bind f).Sat E Q' := by
  cases r with
  | ok a => exact hf a hr
  | ended s => exact hr

theorem Result.sat_outcome {E P : State → Prop} {r : Result State} {t : State} (hr : r.Sat E P)
    (h : r.outcome = .next t) : P t ∨ E t := by
  cases r with
  | ok s => injection h with h; subst h; exact .inl hr
  | ended s => injection h with h; subst h; exact .inr hr

/-- `P` holds after every pop and push that goes on, `E` where a `raise` ends one. -/
structure StackRule (P E : State → Prop) : Prop where
  popped : ∀ k s, P s → (pop k s).Sat E fun a => P a.2
  pushed : ∀ k v s, P s → (push k v s).Sat E P

/-- An instruction that only pops and pushes ends in `P`, or in `E` by a `raise`. -/
theorem StackRule.exec {P E : State → Prop} (h : StackRule P E) {i : Instr} {s t : State} (hi : i ∈ stackInstrs)
    (hs : P s) (he : exec i s = .next t) : P t ∨ E t := by
  have push2 : ∀ k j v w u, P u → ((push k v u).bind fun u' => push j w u').Sat E P := fun k j v w u hu =>
    Result.sat_bind (h.pushed k v u hu) fun u' hu' => h.pushed j w u' hu'
  have hunary : ∀ f, (unary f s).Sat E P := fun f =>
    Result.sat_bind (h.popped _ _ hs) fun _ h1 => h.pushed _ _ _ h1
  have hbinary : ∀ f, (binary f s).Sat E P := fun f =>
    Result.sat_bind (h.popped _ _ hs) fun _ h1 => Result.sat_bind (h.popped _ _ h1) fun _ h2 => h.pushed _ _ _ h2
  cases i
  case pushm1 => exact Result.sat_outcome (h.pushed _ _ _ hs) he
  case xch =>
    exact Result.sat_outcome (Result.sat_bind (h.popped _ _ hs) fun _ h1 =>
      Result.sat_bind (h.popped _ _ h1) fun _ h2 => push2 _ _ _ _ _ h2) he
  case dup => exact Result.sat_outcome (Result.sat_bind (h.popped _ _ hs) fun _ h1 => push2 _ _ _ _ _ h1) he
  case shl0 => exact Result.sat_outcome (hunary _) he
  case shl1 => exact Result.sat_outcome (hunary _) he
  case sws | jmp | inp | out => exact absurd hi (by decide)
  all_goals exact Result.sat_outcome (hbinary _) he

/-! ### The frame of the instructions that only pop and push -/

/-- `u` is `s` but for the two stacks. -/
def SameButStacks (s u : State) : Prop := ∃ l m, u = { s with stack0 := l, stack1 := m }

theorem SameButStacks.setStack {s u : State} (h : SameButStacks s u) (k : StackId) (l : List Word) :
    SameButStacks s (u.setStack k l) := by
  obtain ⟨l0, l1, rfl⟩ := h
  cases k
  · exact ⟨l, l1, rfl⟩
  · exact ⟨l0, l, rfl⟩

/-- Pops and pushes change the stacks alone, or raise a fault on top of that. -/
theorem stackRule_sameButStacks (s : State) :
    StackRule (SameButStacks s) fun u => ∃ v f, SameButStacks s v ∧ u = raise f v where
  popped k u hu := by
    rcases pop_cases k u with ⟨l, v, -, hp⟩ | ⟨-, -, hp⟩ | ⟨-, -, hp⟩ <;> rw [hp]
    · exact hu.setStack k l
    · exact hu
    · exact ⟨u, _, hu, rfl⟩
  pushed k v u hu := by
    rcases push_cases k v u with ⟨-, hp⟩ | ⟨-, hp⟩ <;> rw [hp]
    · exact hu.setStack k _
    · exact ⟨u, _, hu, rfl⟩

/-- Everything an instruction that only pops and pushes can write: the stacks, or the stacks and a fault. -/
theorem exec_stackInstr_cases {i : Instr} {s t : State} (hi : i ∈ stackInstrs) (h : exec i s = .next t) :
    ∃ l m, t = { s with stack0 := l, stack1 := m } ∨ ∃ f, t = raise f { s with stack0 := l, stack1 := m } := by
  rcases (stackRule_sameButStacks s).exec hi ⟨_, _, rfl⟩ h with ⟨l, m, rfl⟩ | ⟨_, f, ⟨l, m, rfl⟩, rfl⟩
  · exact ⟨l, m, .inl rfl⟩
  · exact ⟨l, m, .inr ⟨f, rfl⟩⟩

/-! ### What `$`, `?` and `.` can do -/

theorem execSws_eq {s t : State} (h : exec .sws s = .next t) : t = s.setActive (flipStack s.active) := by
  injection h with h
  exact h.symm

theorem flipStack_ne (k : StackId) : flipStack k ≠ k := by cases k <;> decide

/-- Everything `?` can do (R173): wait, push the answer's word, or overflow with the answer taken. -/
theorem execInp_cases {s t : State} (h : exec .inp s = .next t) :
    (s.input = [] ∧ t = s.await .input) ∨
    (∃ r rest, s.input = r :: rest ∧ s.stackDepth ≠ some (s.stack s.active).length ∧
      t = (s.takeInput rest).setStack s.active (s.stack s.active ++ [answerWord r])) ∨
    (∃ r rest, s.input = r :: rest ∧ s.stackDepth = some (s.stack s.active).length ∧
      t = raise (.stackOverflow s.pc s.active) (s.takeInput rest)) := by
  simp only [exec, execInp] at h
  split at h
  next hin =>
    injection h with h
    exact .inl ⟨hin, h.symm⟩
  next r rest hin =>
    rcases push_cases s.active (answerWord r) (s.takeInput rest) with ⟨hd, hp⟩ | ⟨hd, hp⟩ <;>
      rw [hp] at h <;> injection h with h
    · exact .inr (.inl ⟨r, rest, hin, by simpa using hd, by simp [← h]⟩)
    · exact .inr (.inr ⟨r, rest, hin, by simpa using hd, h.symm⟩)

/-- Everything `.` can do (R174): write the low byte of what it pops, or underflow. -/
theorem execOut_cases {s t : State} (h : exec .out s = .next t) :
    (∃ l a, s.stack s.active = l ++ [a] ∧ t = outWrite (lowByte a) (s.setStack s.active l)) ∨
    (s.stack s.active = [] ∧ s.strict = false ∧ t = outWrite (lowByte minusOne) s) ∨
    (s.stack s.active = [] ∧ s.strict = true ∧ t = raise (.stackUnderflow s.pc s.active) s) := by
  simp only [exec, execOut] at h
  rcases consume_cases (fun a s' => outWrite (lowByte a) s') s with ⟨l, a, hl, hp⟩ | ⟨hl, hs, hp⟩ | ⟨hl, hs, hp⟩ <;>
    rw [hp] at h <;> injection h with h
  · exact .inl ⟨l, a, hl, h.symm⟩
  · exact .inr (.inl ⟨hl, hs, h.symm⟩)
  · exact .inr (.inr ⟨hl, hs, h.symm⟩)

@[simp] theorem outWrite_pc (b : Byte) (s : State) : (outWrite b s).pc = s.pc := by
  rcases outWrite_cases b s with ⟨-, h⟩ | ⟨-, h⟩ <;> simp [h]

@[simp] theorem outWrite_active (b : Byte) (s : State) : (outWrite b s).active = s.active := by
  rcases outWrite_cases b s with ⟨-, h⟩ | ⟨-, h⟩ <;> simp [h]

@[simp] theorem outWrite_status (b : Byte) (s : State) : (outWrite b s).status = s.status := by
  rcases outWrite_cases b s with ⟨-, h⟩ | ⟨-, h⟩ <;> simp [h]

@[simp] theorem outWrite_strict (b : Byte) (s : State) : (outWrite b s).strict = s.strict := by
  rcases outWrite_cases b s with ⟨-, h⟩ | ⟨-, h⟩ <;> simp [h]

/-- What waits after an output transaction is the byte it offered (R172). -/
theorem outWrite_io {b : Byte} {s : State} {r : IoRequest} (h : (outWrite b s).io = some r) : r = .output b := by
  rcases outWrite_cases b s with ⟨-, hw⟩ | ⟨-, hw⟩ <;> rw [hw] at h
  · cases h
  · exact (Option.some.inj h).symm

/-! ### `pc` and `i` in `Execute` -/

/-- Every instruction but `@` leaves `pc` alone (R28). -/
theorem exec_pc {i : Instr} {s t : State} (hi : i ≠ .jmp) (h : exec i s = .next t) : t.pc = s.pc := by
  rcases instr_kinds i with hk | rfl | rfl | rfl | rfl
  · obtain ⟨l, m, rfl | ⟨f, rfl⟩⟩ := exec_stackInstr_cases hk h <;> rfl
  · simp [execSws_eq h]
  · exact absurd rfl hi
  · rcases execInp_cases h with ⟨-, rfl⟩ | ⟨r, rest, -, -, rfl⟩ | ⟨r, rest, -, -, rfl⟩ <;> simp
  · rcases execOut_cases h with ⟨l, a, -, rfl⟩ | ⟨-, -, rfl⟩ | ⟨-, -, rfl⟩ <;> simp

/-- Every instruction but `$` leaves `i` alone (R24). -/
theorem exec_active {i : Instr} {s t : State} (hi : i ≠ .sws) (h : exec i s = .next t) : t.active = s.active := by
  rcases instr_kinds i with hk | rfl | rfl | rfl | rfl
  · obtain ⟨l, m, rfl | ⟨f, rfl⟩⟩ := exec_stackInstr_cases hk h <;> rfl
  · exact absurd rfl hi
  · rcases execJmp_cases h with ⟨l, a, -, -, rfl⟩ | ⟨l, -, rfl⟩ | ⟨-, -, rfl⟩ | ⟨-, -, rfl⟩ <;> simp
  · rcases execInp_cases h with ⟨-, rfl⟩ | ⟨r, rest, -, -, rfl⟩ | ⟨r, rest, -, -, rfl⟩ <;> simp
  · rcases execOut_cases h with ⟨l, a, -, rfl⟩ | ⟨-, -, rfl⟩ | ⟨-, -, rfl⟩ <;> simp

/-- A transaction that is outstanding after an instruction, and was not before it, is that instruction's; it has
left `pc` and the status alone (R171, R172, R206). A `?` that waited already may wait again. -/
theorem exec_waits {i : Instr} {s u : State} {r : IoRequest} (h : exec i s = .next u)
    (hio : s.io = none ∨ i = .inp) (hr : u.io = some r) : r.instr = i ∧ u.status = s.status ∧ u.pc = s.pc := by
  rcases instr_kinds i with hk | rfl | rfl | rfl | rfl
  · have hs : s.io = none := hio.resolve_right (by rintro rfl; exact absurd hk (by decide))
    obtain ⟨l, m, rfl | ⟨f, rfl⟩⟩ := exec_stackInstr_cases hk h <;> simp [hs] at hr
  · have hs : s.io = none := hio.resolve_right (by decide)
    rw [execSws_eq h] at hr
    simp [hs] at hr
  · have hs : s.io = none := hio.resolve_right (by decide)
    rcases execJmp_cases h with ⟨l, a, -, -, rfl⟩ | ⟨l, -, rfl⟩ | ⟨-, -, rfl⟩ | ⟨-, -, rfl⟩ <;> simp [hs] at hr
  · rcases execInp_cases h with ⟨-, rfl⟩ | ⟨_, rest, -, -, rfl⟩ | ⟨_, rest, -, -, rfl⟩ <;> simp at hr
    subst hr
    exact ⟨rfl, rfl, rfl⟩
  · have hs : s.io = none := hio.resolve_right (by decide)
    rcases execOut_cases h with ⟨l, a, -, rfl⟩ | ⟨-, -, rfl⟩ | ⟨-, -, rfl⟩
    · simp [outWrite_io hr, IoRequest.instr]
    · simp [outWrite_io hr, IoRequest.instr]
    · simp [hs] at hr

/-! ### The program is never written -/

/-- The configuration and the code are those of `s`. -/
def ProgramOf (s u : State) : Prop := SameCode s u ∧ u.code = s.code

theorem programOf_self (s : State) : ProgramOf s s := ⟨⟨rfl, rfl, rfl, rfl, rfl, fun _ => rfl⟩, rfl⟩

theorem preserved_programOf (s : State) : Preserved (ProgramOf s) where
  setStack _ k _ h := by cases k <;> exact h
  raised _ _ h := h
  setActive _ _ h := h
  setPc _ _ h := h
  halted _ h := h
  await _ _ h := h
  takeInput _ _ _ _ h := h
  acceptOutput _ _ h := h

theorem programOf_traceOut (s : State) (i : Instr) (u : State) (h : ProgramOf s u) : ProgramOf s (traceOut i u) := by
  rw [traceOut_eq]
  exact h

theorem exec_programOf {i : Instr} {s t : State} (h : exec i s = .next t) : ProgramOf s t :=
  exec_preserves (preserved_programOf s) (programOf_self s) h

theorem step_programOf {s t : State} (h : step s = .next t) : ProgramOf s t :=
  step_preserves (preserved_programOf s) (programOf_traceOut s) (programOf_self s) h

/-- With the same program a fetch at the same `pc` finds the same. -/
theorem ProgramOf.fetch_eq {s u : State} (h : ProgramOf s u) (hpc : u.pc = s.pc) : fetch u = fetch s := by
  obtain ⟨⟨-, -, -, hform, hlen, -⟩, hcode⟩ := h
  exact fetch_congr hpc hlen hform hcode

theorem ProgramOf.codeLen_eq {s u : State} (h : ProgramOf s u) : u.codeLen = s.codeLen := by
  obtain ⟨⟨-, -, -, -, hlen, -⟩, -⟩ := h
  exact hlen

theorem ProgramOf.strict_eq {s u : State} (h : ProgramOf s u) : u.strict = s.strict := by
  obtain ⟨⟨hstrict, -⟩, -⟩ := h
  exact hstrict

theorem ProgramOf.codeLoaded {s u : State} (h : ProgramOf s u) (hs : s.CodeLoaded) : u.CodeLoaded := by
  obtain ⟨⟨-, -, -, hform, hlen, -⟩, hcode⟩ := h
  obtain ⟨hcanonical, hexact, heven⟩ := hs
  exact ⟨by rwa [hcode], by rwa [hcode, hform, hlen], by rwa [hform, hlen]⟩

/-! ### Properties that every operation keeps -/

/-- Every operation of a step keeps the property: where `Preserved` asks for every write of a stack, this asks only
for what a pop and a push write. -/
structure KeptByOps (P : State → Prop) : Prop where
  stack : StackRule P P
  setActive : ∀ s k, P s → P (s.setActive k)
  jump : ∀ a s, P s → P (jumpOrHalt a s)
  await : ∀ s r, P s → P (s.await r)
  takeInput : ∀ s l, P s → P (s.takeInput l)
  output : ∀ b s, P s → P (outWrite b s)
  traced : ∀ i s, P s → P (traceOut i s)
  badByte : ∀ b s, P s → P (raise (.internalError s.pc b) s)
  advanced : ∀ p s, P s → P (advance p s)

theorem KeptByOps.consume {P : State → Prop} (h : KeptByOps P) {f : Word → State → State} {s : State} (hs : P s)
    (hf : ∀ a u, P u → P (f a u)) : (consume f s).Sat P P :=
  Result.sat_bind (h.stack.popped _ _ hs) fun a ha => hf a.1 a.2 ha

theorem KeptByOps.exec {P : State → Prop} (h : KeptByOps P) {i : Instr} {s t : State} (hs : P s)
    (he : exec i s = .next t) : P t := by
  rcases instr_kinds i with hk | rfl | rfl | rfl | rfl
  · exact or_self_iff.mp (h.stack.exec hk hs he)
  · rw [execSws_eq he]
    exact h.setActive _ _ hs
  · exact or_self_iff.mp (Result.sat_outcome (h.consume hs h.jump) he)
  · simp only [Machine.exec, execInp] at he
    split at he
    · injection he with he
      exact he ▸ h.await _ _ hs
    · exact or_self_iff.mp (Result.sat_outcome (h.stack.pushed _ _ _ (h.takeInput _ _ hs)) he)
  · exact or_self_iff.mp (Result.sat_outcome (h.consume hs fun a => h.output (lowByte a)) he)

theorem KeptByOps.cycleEnd {P : State → Prop} (h : KeptByOps P) {p : Word} {s : State} (hs : P s) :
    P (cycleEnd p s) := by
  rcases cycleEnd_cases p s with ⟨-, -, hc⟩ | ⟨-, hc⟩ <;> rw [hc]
  · exact h.advanced _ _ hs
  · exact hs

theorem KeptByOps.step {P : State → Prop} (h : KeptByOps P) {s t : State} (hs : P s) (he : step s = .next t) :
    P t := by
  obtain ⟨-, ⟨i, u, -, -, -, hu, rfl⟩ | ⟨b, -, -, -, rfl⟩ | ⟨u, -, hu, rfl⟩ | ⟨b, -, rfl⟩⟩ := step_next_cases he
  · exact h.cycleEnd (h.exec (h.traced _ _ hs) hu)
  · exact h.badByte _ _ hs
  · exact h.cycleEnd (h.exec hs hu)
  · exact h.cycleEnd (h.output _ _ hs)

end Sys2Proof.Machine

/-! # The invariant: at reset, kept by every step, and enough for a next step -/

namespace Sys2Proof.Machine

open Sys2Proof.Rules

/-! ### The stacks stay within their capacity (R56) -/

theorem depthOk_setStack {s : State} {k : StackId} {l : List Word} (h : s.DepthOk)
    (hl : ∀ d, s.stackDepth = some d → l.length ≤ d) : (s.setStack k l).DepthOk := by
  intro d hd
  rw [setStack_stackDepth] at hd
  obtain ⟨h1, h2, h3⟩ := h d hd
  cases k
  · exact ⟨h1, hl d hd, h3⟩
  · exact ⟨h1, h2, hl d hd⟩

theorem depthOk_stack {s : State} (h : s.DepthOk) (k : StackId) (d : Nat) (hd : s.stackDepth = some d) :
    (s.stack k).length ≤ d := by
  obtain ⟨-, h0, h1⟩ := h d hd
  cases k
  · exact h0
  · exact h1

/-- A stack within its capacity has room for a word in place of its top. -/
theorem depthOk_room_below {s : State} {k : StackId} {l : List Word} {v : Word} (h : s.DepthOk)
    (hl : s.stack k = l ++ [v]) : s.stackDepth ≠ some l.length := by
  intro hd
  have := depthOk_stack h k _ hd
  simp [hl] at this

/-- A pop shortens a stack, and a push that goes on found a stack below its capacity. -/
theorem stackRule_depthOk : StackRule State.DepthOk State.DepthOk where
  popped k s h := by
    rcases pop_cases k s with ⟨l, v, hl, hp⟩ | ⟨-, -, hp⟩ | ⟨-, -, hp⟩ <;> rw [hp]
    · refine depthOk_setStack h fun d hd => ?_
      have := depthOk_stack h k d hd
      simp [hl] at this
      omega
    · exact h
    · exact h
  pushed k v s h := by
    rcases push_cases k v s with ⟨hne, hp⟩ | ⟨-, hp⟩ <;> rw [hp]
    · refine depthOk_setStack h fun d hd => ?_
      have hle := depthOk_stack h k d hd
      have hlt : (s.stack k).length ≠ d := by rintro rfl; exact hne hd
      simp
      omega
    · exact h

theorem keptByOps_depthOk : KeptByOps State.DepthOk where
  stack := stackRule_depthOk
  setActive _ _ h := h
  jump a s h := by unfold jumpOrHalt; split <;> exact h
  await _ _ h := h
  takeInput _ _ h := h
  output b s h := by rcases outWrite_cases b s with ⟨-, hw⟩ | ⟨-, hw⟩ <;> rw [hw] <;> exact h
  traced i s h := by rw [traceOut_eq]; exact h
  badByte _ _ h := h
  advanced p s h := by rcases advance_cases p s with ⟨-, ha⟩ | ⟨-, -, ha⟩ | ⟨-, -, ha⟩ <;> rw [ha] <;> exact h

/-! ### `pc` stays inside the code, and a wait is a wait of the instruction there (R26, R206) -/

/-- The two clauses of the invariant that speak of `pc`. -/
structure PcOk (s : State) : Prop where
  inCode : s.status = .running → s.codeLen ≠ 0#64 → s.pc < s.codeLen
  wait : ∀ r, s.io = some r → s.status = .running ∧ s.codeLen ≠ 0#64 ∧ fetch s = .op r.instr

/-- The range check leaves a running machine inside its code. -/
theorem advance_pcOk {p : Word} {u : State} (hl : u.codeLen ≠ 0#64) (hio : u.io = none) : PcOk (advance p u) := by
  rcases advance_cases p u with ⟨hlt, ha⟩ | ⟨-, -, ha⟩ | ⟨-, -, ha⟩ <;> rw [ha]
  · exact ⟨fun _ _ => hlt, by simp [hio]⟩
  · exact ⟨fun _ _ => by simpa [BitVec.pos_iff_ne_zero] using hl, by simp [hio]⟩
  · exact ⟨by simp, by simp [hio]⟩

/-- After an instruction whose wait, if it waits, is its own, the end of the cycle leaves `pc` as it has to be. -/
theorem cycleEnd_pcOk {p : Word} {u : State} (hl : u.codeLen ≠ 0#64)
    (hw : ∀ r, u.io = some r → u.status = .running ∧ fetch u = .op r.instr) : PcOk (cycleEnd p u) := by
  rcases cycleEnd_cases p u with ⟨-, hio, hc⟩ | ⟨hstop, hc⟩ <;> rw [hc]
  · exact advance_pcOk hl hio
  · refine ⟨fun hs _ => ?_, fun r hr => ⟨(hw r hr).1, hl, (hw r hr).2⟩⟩
    obtain ⟨r, hr⟩ := Option.ne_none_iff_exists'.mp (hstop.resolve_left (not_not.mpr hs))
    exact (fetch_op (hw r hr).2).1

/-- An instruction that is run where it is fetched ends a cycle with `pc` as it has to be. -/
theorem exec_cycleEnd_pcOk {i : Instr} {s u : State} (h : exec i s = .next u) (hio : s.io = none ∨ i = .inp)
    (hs : s.status = .running) (hl : s.codeLen ≠ 0#64) (hf : fetch s = .op i) : PcOk (cycleEnd s.pc u) := by
  refine cycleEnd_pcOk (by rwa [(exec_programOf h).codeLen_eq]) fun r hr => ?_
  obtain ⟨rfl, hstatus, hpc⟩ := exec_waits h hio hr
  exact ⟨by rwa [hstatus], by rwa [(exec_programOf h).fetch_eq hpc]⟩

theorem programOf_outWrite (b : Byte) (s : State) : ProgramOf s (outWrite b s) :=
  (preserved_programOf s).outWrite (programOf_self s)

theorem step_pcOk {s t : State} (hinv : s.Inv) (h : step s = .next t) : PcOk t := by
  obtain ⟨hs, ⟨i, u, hio, hl, hf, hu, rfl⟩ | ⟨b, hio, -, -, rfl⟩ | ⟨u, hio, hu, rfl⟩ | ⟨b, hio, rfl⟩⟩ :=
    step_next_cases h
  · have hprog := programOf_traceOut s i s (programOf_self s)
    simpa using exec_cycleEnd_pcOk hu (.inl (by simpa using hio)) (by simpa using hs) (by simpa using hl)
      ((hprog.fetch_eq (traceOut_pc i s)).trans hf)
  · exact ⟨by simp, by simp [hio]⟩
  · obtain ⟨-, hl, hf⟩ := hinv.wait _ hio
    exact exec_cycleEnd_pcOk hu (.inr rfl) hs hl hf
  · obtain ⟨-, hl, hf⟩ := hinv.wait _ hio
    have hprog := programOf_outWrite b s
    refine cycleEnd_pcOk (by rwa [hprog.codeLen_eq]) fun r hr => ⟨by simpa using hs, ?_⟩
    rw [outWrite_io hr, hprog.fetch_eq (outWrite_pc b s)]
    exact hf

/-- Settles O51: the code is not written, a push that goes on found room, and the range check or the wait itself
puts `pc` where the invariant wants it. -/
theorem invariantKeptByStep : Obligations.InvariantKeptByStep := by
  intro s t hinv h
  obtain ⟨hin, hwait⟩ := step_pcOk hinv h
  exact ⟨(step_programOf h).codeLoaded hinv.code, keptByOps_depthOk.step hinv.depth h, hin, hwait⟩

/-- Settles O49: no code is loaded, and both stacks are empty with no capacity set. -/
theorem invariantAtReset : Obligations.InvariantAtReset where
  code := ⟨Memory.reset_wf, by simp [State.reset, codeBytes], by simp [State.reset]⟩
  depth := by intro d hd; cases hd
  pcInCode := fun _ hl => absurd rfl hl
  wait := by intro r hr; cases hr

/-- In loaded code there is a byte for every index below `L` (R52, R53). -/
theorem codeLoaded_read {s : State} (h : s.CodeLoaded) (hpc : s.pc < s.codeLen) :
    ∃ b, Memory.read s.code (byteAddress s.codeForm (u64 s.pc)) = some b := by
  refine Option.isSome_iff_exists.mp ((h.exact _).mpr ?_)
  have hlt : s.pc.toNat < s.codeLen.toNat := hpc
  cases hform : s.codeForm
  · have := h.evenPacked hform
    simp only [byteAddress, codeBytes, u64]
    omega
  · exact hlt

theorem opcodeIn_cases (form : CodeForm) (n : Nat) (b : Byte) :
    (∃ i, opcodeIn form n b = .op i) ∨ ∃ c, opcodeIn form n b = .badByte c := by
  cases form
  · exact .inl ⟨_, rfl⟩
  · simp only [opcodeIn]
    split
    · exact .inl ⟨_, rfl⟩
    · exact .inr ⟨_, rfl⟩

/-- A fetch inside loaded code finds an opcode or a byte outside the alphabet, and never nothing. -/
theorem fetch_loaded {s : State} (h : s.CodeLoaded) (hpc : s.pc < s.codeLen) :
    (∃ i, fetch s = .op i) ∨ ∃ b, fetch s = .badByte b := by
  obtain ⟨b, hb⟩ := codeLoaded_read h hpc
  rw [fetch_inside hpc, fetchAt, hb]
  exact opcodeIn_cases _ _ b

/-- A step that fetches a byte outside the alphabet raises `InternalError` (R87). -/
theorem step_of_badByte {s : State} {b : Byte} (hs : s.status = .running) (hio : s.io = none)
    (hl : s.codeLen ≠ 0#64) (hf : fetch s = .badByte b) : step s = .next (raise (.internalError s.pc b) s) := by
  simp [step, hs, hio, beginStep, hl, hf]

/-- Settles O52: the fetch finds a byte, and every instruction answers a next state. -/
theorem runningMachineSteps : Obligations.RunningMachineSteps := by
  intro s hinv hs hl
  match hio : s.io with
  | none =>
    rcases fetch_loaded hinv.code (hinv.pcInCode hs hl) with ⟨i, hf⟩ | ⟨b, hf⟩
    · obtain ⟨u, hu⟩ := exec_next i (traceOut i s)
      exact ⟨_, step_of_exec hs hio hf hu⟩
    · exact ⟨_, step_of_badByte hs hio hl hf⟩
  | some .input =>
    obtain ⟨u, hu⟩ := exec_next .inp s
    exact ⟨cycleEnd s.pc u, by simp [step, hs, hio, hu]⟩
  | some (.output b) => exact ⟨cycleEnd s.pc (outWrite b s), by simp [step, hs, hio]⟩

end Sys2Proof.Machine

/-! # Mode, tracing and the diagnostic sink do not steer a step: one simulation for R31 and R32 -/

namespace Sys2Proof.Machine

section Recast

variable {m e : Bool → Bool} {d : List Diag → List Diag}

/-- The state with the mode, the tracing switch and the diagnostic sink seen through `m`, `e` and `d`. -/
def State.recast (m e : Bool → Bool) (d : List Diag → List Diag) (s : State) : State :=
  { s with strict := m s.strict, traceEn := e s.traceEn, diag := d s.diag }

/-- A fault of strict mode where strict mode is seen as lenient: the one end a recast step need not follow. -/
def Excused (m : Bool → Bool) (t : State) : Prop := m true = false ∧ t.status.isStrictFault = true

/-- What is asked of `m`, `e` and `d`: lenient mode stays lenient, a fault's line stays, and a trace record before
the change of view is the record, if any, after it. -/
structure RecastOk (m e : Bool → Bool) (d : List Diag → List Diag) : Prop where
  lenient : m false = false
  failure : ∀ l f, d (l ++ [.failure f]) = d l ++ [.failure f]
  traced : ∀ i s, (traceOut i s).recast m e d = traceOut i (s.recast m e d)

@[simp] theorem recast_active (s : State) : (s.recast m e d).active = s.active := rfl
@[simp] theorem recast_pc (s : State) : (s.recast m e d).pc = s.pc := rfl
@[simp] theorem recast_strict (s : State) : (s.recast m e d).strict = m s.strict := rfl
@[simp] theorem recast_stackDepth (s : State) : (s.recast m e d).stackDepth = s.stackDepth := rfl
@[simp] theorem recast_codeLen (s : State) : (s.recast m e d).codeLen = s.codeLen := rfl
@[simp] theorem recast_status (s : State) : (s.recast m e d).status = s.status := rfl
@[simp] theorem recast_io (s : State) : (s.recast m e d).io = s.io := rfl
@[simp] theorem recast_input (s : State) : (s.recast m e d).input = s.input := rfl
@[simp] theorem recast_fetch (s : State) : fetch (s.recast m e d) = fetch s := rfl
@[simp] theorem recast_stack (s : State) (k : StackId) : (s.recast m e d).stack k = s.stack k := by cases k <;> rfl

theorem recast_setStack (s : State) (k : StackId) (l : List Word) :
    (s.setStack k l).recast m e d = (s.recast m e d).setStack k l := by cases k <;> rfl

theorem recast_jumpOrHalt (a : Word) (s : State) :
    (jumpOrHalt a s).recast m e d = jumpOrHalt a (s.recast m e d) := by
  unfold jumpOrHalt
  split <;> rfl

theorem recast_outWrite (b : Byte) (s : State) : (outWrite b s).recast m e d = outWrite b (s.recast m e d) := by
  unfold outWrite
  split <;> simp_all [State.recast, State.acceptOutput, State.await]

/-- A machine that a strict fault has stopped does not run. -/
theorem Excused.stopped {t : State} (h : Excused m t) : t.status ≠ .running := by
  intro hs
  simp [Excused, hs, Status.isStrictFault] at h

/-- `r'` answers the recast of what `r` answers, unless `r` ended in an excused fault. -/
def Result.Recasts {α : Type} (m e : Bool → Bool) (d : List Diag → List Diag) (g : α → α) : Result α → Result α → Prop
  | .ok a, r' => r' = .ok (g a)
  | .ended s, r' => Excused m s ∨ r' = .ended (s.recast m e d)

theorem Result.recasts_bind {α β : Type} {g : α → α} {g' : β → β} {r r' : Result α} {f f' : α → Result β}
    (hr : r.Recasts m e d g r') (hf : ∀ a, (f a).Recasts m e d g' (f' (g a))) :
    (r.bind f).Recasts m e d g' (r'.bind f') := by
  cases r with
  | ok a =>
    obtain rfl : r' = .ok (g a) := hr
    exact hf a
  | ended s => exact Or.imp_right (fun h : r' = _ => by rw [h]; rfl) hr

theorem Result.recasts_outcome {r r' : Result State} {t : State} (hr : r.Recasts m e d (State.recast m e d) r')
    (h : r.outcome = .next t) : Excused m t ∨ r'.outcome = .next (t.recast m e d) := by
  cases r with
  | ok s =>
    injection h with h
    subst h
    exact .inr (by rw [show r' = .ok _ from hr]; rfl)
  | ended s =>
    injection h with h
    subst h
    exact Or.imp_right (fun h : r' = _ => by rw [h]; rfl) hr

namespace RecastOk

variable (h : RecastOk m e d)
include h

theorem raise (f : VmFault) (s : State) : (raise f s).recast m e d = Machine.raise f (s.recast m e d) := by
  simp [State.recast, Machine.raise, h.failure]

/-- A pop depends on the mode in the one case of an empty stack (R31, R55). -/
theorem pop (k : StackId) (s : State) :
    (pop k s).Recasts m e d (Prod.map id (State.recast m e d)) (Machine.pop k (s.recast m e d)) := by
  rcases pop_cases k s with ⟨l, v, hl, hp⟩ | ⟨hl, hs, hp⟩ | ⟨hl, hs, hp⟩ <;> rw [hp]
  · rw [pop_concat (l := l) (v := v) (by simpa using hl), ← recast_setStack]
    rfl
  · rw [pop_nil_lenient (by simpa using hl) (by simp [hs, h.lenient])]
    rfl
  · rcases Bool.eq_false_or_eq_true (m true) with hm | hm
    · rw [pop_nil_strict (by simpa using hl) (by simp [hs, hm])]
      exact .inr (by rw [h.raise]; rfl)
    · exact .inl ⟨hm, rfl⟩

theorem push (k : StackId) (v : Word) (s : State) :
    (push k v s).Recasts m e d (State.recast m e d) (Machine.push k v (s.recast m e d)) := by
  rcases push_cases k v s with ⟨hd, hp⟩ | ⟨hd, hp⟩ <;> rw [hp]
  · rw [push_ok (by simpa using hd), recast_stack, ← recast_setStack]
    rfl
  · rw [push_full (by simpa using hd)]
    exact .inr (by rw [h.raise]; rfl)

theorem consume {f : Word → State → State} (hf : ∀ a u, (f a u).recast m e d = f a (u.recast m e d)) (s : State) :
    (consume f s).Recasts m e d (State.recast m e d) (Machine.consume f (s.recast m e d)) :=
  Result.recasts_bind (h.pop s.active s) fun a => congrArg Result.ok (hf a.1 a.2).symm

theorem unary (f : Word → Word) (s : State) :
    (unary f s).Recasts m e d (State.recast m e d) (Machine.unary f (s.recast m e d)) :=
  Result.recasts_bind (h.pop s.active s) fun a => h.push s.active (f a.1) a.2

theorem binary (f : Word → Word → Word) (s : State) :
    (binary f s).Recasts m e d (State.recast m e d) (Machine.binary f (s.recast m e d)) :=
  Result.recasts_bind (h.pop s.active s) fun b =>
    Result.recasts_bind (h.pop s.active b.2) fun a => h.push s.active (f a.1 b.1) a.2

theorem duplicate (s : State) :
    (duplicate s).Recasts m e d (State.recast m e d) (Machine.duplicate (s.recast m e d)) :=
  Result.recasts_bind (h.pop s.active s) fun x =>
    Result.recasts_bind (h.push s.active x.1 x.2) fun u => h.push s.active x.1 u

theorem exchange (s : State) :
    (exchange s).Recasts m e d (State.recast m e d) (Machine.exchange (s.recast m e d)) :=
  Result.recasts_bind (h.pop .s0 s) fun x =>
    Result.recasts_bind (h.pop .s1 x.2) fun y =>
      Result.recasts_bind (h.push .s1 x.1 y.2) fun u => h.push .s0 y.1 u

/-- An instruction commutes with recasting, but for the excused faults. -/
theorem exec {i : Instr} {s t : State} (he : exec i s = .next t) :
    Excused m t ∨ Machine.exec i (s.recast m e d) = .next (t.recast m e d) := by
  cases i
  case pushm1 => exact Result.recasts_outcome (h.push s.active _ s) he
  case sws =>
    rw [execSws_eq he]
    exact .inr rfl
  case xch => exact Result.recasts_outcome (h.exchange s) he
  case dup => exact Result.recasts_outcome (h.duplicate s) he
  case jmp => exact Result.recasts_outcome (h.consume recast_jumpOrHalt s) he
  case inp =>
    simp only [Machine.exec, execInp, recast_input] at he ⊢
    split at he
    · injection he with he
      exact .inr (he ▸ rfl)
    · exact Result.recasts_outcome (h.push s.active _ _) he
  case out => exact Result.recasts_outcome (h.consume (fun a => recast_outWrite (lowByte a)) s) he
  case shl0 | shl1 => exact Result.recasts_outcome (h.unary _ s) he
  all_goals exact Result.recasts_outcome (h.binary _ s) he

/-- The range check depends on the mode in the one case of an index past the code (R29, R31). -/
theorem advance (p : Word) (s : State) :
    Excused m (advance p s) ∨ Machine.advance p (s.recast m e d) = (Machine.advance p s).recast m e d := by
  cases hpast : pastCode (nextIndex s.pc) s.codeLen with
  | false => exact .inr (by simp [Machine.advance, hpast]; rfl)
  | true =>
    cases hs : s.strict with
    | false => exact .inr (by simp [Machine.advance, hpast, hs, h.lenient]; rfl)
    | true =>
      rcases Bool.eq_false_or_eq_true (m true) with hm | hm
      · exact .inr (by simp [Machine.advance, hpast, hs, hm, h.raise]; rfl)
      · exact .inl ⟨hm, by simp [Machine.advance, hpast, hs, Status.isStrictFault]⟩

theorem cycleEnd (p : Word) (s : State) :
    Excused m (cycleEnd p s) ∨ Machine.cycleEnd p (s.recast m e d) = (Machine.cycleEnd p s).recast m e d := by
  unfold Machine.cycleEnd
  rw [recast_status, recast_io]
  split
  · exact h.advance p s
  · exact .inr rfl

/-- The end of a cycle follows an instruction that commutes: an excused fault has ended the step already. -/
theorem cycleEnd_of_exec {o : Host.Outcome State Fault Refusal} {p : Word} {u : State}
    (ho : Excused m u ∨ o = .next (u.recast m e d)) :
    Excused m (Machine.cycleEnd p u) ∨ finish p o = .next ((Machine.cycleEnd p u).recast m e d) := by
  rcases ho with hx | rfl
  · rcases cycleEnd_cases p u with ⟨hs, -, -⟩ | ⟨-, hc⟩
    · exact absurd hs hx.stopped
    · exact .inl (hc.symm ▸ hx)
  · exact (h.cycleEnd p u).imp_right fun hc => by rw [finish_next, hc]

/-- A step commutes with recasting, but for the excused faults. -/
theorem step {s t : State} (ht : step s = .next t) :
    Excused m t ∨ Machine.step (s.recast m e d) = .next (t.recast m e d) := by
  obtain ⟨hs, ⟨i, u, hio, hl, hf, hu, rfl⟩ | ⟨b, hio, hl, hf, rfl⟩ | ⟨u, hio, hu, rfl⟩ | ⟨b, hio, rfl⟩⟩ :=
    step_next_cases ht
  · have hstep : Machine.step (s.recast m e d) = finish s.pc (Machine.exec i ((traceOut i s).recast m e d)) := by
      simp [Machine.step, hs, hio, beginStep, hl, hf, h.traced]
    exact hstep ▸ h.cycleEnd_of_exec (h.exec hu)
  · rw [h.raise]
    exact .inr (step_of_badByte (s := s.recast m e d) hs hio hl hf)
  · have hstep : Machine.step (s.recast m e d) = finish s.pc (Machine.exec .inp (s.recast m e d)) := by
      simp [Machine.step, hs, hio]
    exact hstep ▸ h.cycleEnd_of_exec (h.exec hu)
  · have hstep : Machine.step (s.recast m e d) = finish s.pc (.next (outWrite b (s.recast m e d))) := by
      simp [Machine.step, hs, hio]
    exact hstep ▸ h.cycleEnd_of_exec (.inr (by rw [recast_outWrite]))

end RecastOk

end Recast

/-! ### The trace (R32, R205) -/

/-- Leaving the trace out is a change of view. -/
theorem recastOk_noTrace : RecastOk id (fun _ => false) (List.filter fun x => !isTrace x) where
  lenient := rfl
  failure l f := by simp [isTrace]
  traced i s := by cases hen : s.traceEn <;> simp [traceOut, hen, State.recast, isTrace]

/-- Where a step stops with a fault of the model: a machine that has stopped (R36), or a fetch that finds nothing. -/
theorem step_fault_iff {s : State} {f : Fault} : step s = .fault f ↔
    (s.status ≠ .running ∧ f = .stopped) ∨
    (s.status = .running ∧ s.io = none ∧ s.codeLen ≠ 0#64 ∧
      (fetch s = .absent ∧ f = .codeByteAbsent ∨ fetch s = .outside ∧ f = .pcOutsideCode)) := by
  cases hs : s.status with
  | halted | faulted => simp [step, hs, @eq_comm _ f]
  | running =>
    rcases hio : s.io with _ | _ | b
    · by_cases hl : s.codeLen = 0#64
      · simp [step, hs, hio, beginStep, hl]
      · cases hf : fetch s with
        | op i =>
          obtain ⟨u, hu⟩ := exec_next i (traceOut i s)
          simp [step_of_exec hs hio hf hu]
        | badByte b => simp [step_of_badByte hs hio hl hf]
        | absent | outside => simp [step, hs, hio, beginStep, hl, hf, eq_comm]
    · obtain ⟨u, hu⟩ := exec_next .inp s
      simp [step, hs, hio, hu]
    · simp [step, hs, hio]

/-- A step is refused where there is no code, and nowhere else (R221). -/
theorem step_refused_iff {s : State} {r : Refusal} : step s = .refused r ↔
    s.status = .running ∧ s.io = none ∧ s.codeLen = 0#64 ∧ r = .emptyCode := by
  cases hs : s.status with
  | halted | faulted => simp [step, hs]
  | running =>
    rcases hio : s.io with _ | _ | b
    · by_cases hl : s.codeLen = 0#64
      · simp [step, hs, hio, beginStep, hl, eq_comm]
      · cases hf : fetch s with
        | op i =>
          obtain ⟨u, hu⟩ := exec_next i (traceOut i s)
          simp [step_of_exec hs hio hf hu, hl]
        | badByte b => simp [step_of_badByte hs hio hl hf, hl]
        | absent | outside => simp [step, hs, hio, beginStep, hl, hf]
    · obtain ⟨u, hu⟩ := exec_next .inp s
      simp [step, hs, hio, hu]
    · simp [step, hs, hio]

/-- Settles O54: leaving the trace out is a change of view that excuses no fault, and what stops a step is no part
of that view. -/
theorem traceHasNoEffect : Obligations.TraceHasNoEffect := by
  intro s
  refine ⟨fun t ht => ?_, fun f hf => ?_, fun r hr => ?_⟩
  · exact (recastOk_noTrace.step ht).resolve_left fun hx => absurd hx.1 (by decide)
  · exact step_fault_iff.mpr (step_fault_iff (s := s).mp hf)
  · exact step_refused_iff.mpr (step_refused_iff (s := s).mp hr)

/-! ### The mode (R31, R191) -/

/-- Making the mode lenient is a change of view. -/
theorem recastOk_lenient : RecastOk (fun _ => false) id id where
  lenient := rfl
  failure _ _ := rfl
  traced i s := by cases hen : s.traceEn <;> simp [traceOut, hen, State.recast, State.traceRecord]

/-- The machine is in lenient mode, and no fault of strict mode was raised. -/
def NoStrictFault (s : State) : Prop := s.strict = false ∧ s.status.isStrictFault = false

/-- In lenient mode an empty stack gives −1, and a push raises `StackOverflow` at most. -/
theorem stackRule_noStrictFault : StackRule NoStrictFault NoStrictFault where
  popped k s h := by
    rcases pop_cases k s with ⟨l, v, -, hp⟩ | ⟨-, -, hp⟩ | ⟨-, hs, -⟩
    · rw [hp]
      simpa [NoStrictFault, Result.Sat] using h
    · rw [hp]
      exact h
    · exact absurd hs (by simp [h.1])
  pushed k v s h := by
    rcases push_cases k v s with ⟨-, hp⟩ | ⟨-, hp⟩ <;> rw [hp]
    · simpa [NoStrictFault, Result.Sat] using h
    · exact ⟨h.1, rfl⟩

theorem keptByOps_noStrictFault : KeptByOps NoStrictFault where
  stack := stackRule_noStrictFault
  setActive _ _ h := h
  jump a s h := by
    unfold jumpOrHalt
    split
    · exact ⟨h.1, rfl⟩
    · exact h
  await _ _ h := h
  takeInput _ _ h := h
  output b s h := by simpa [NoStrictFault] using h
  traced i s h := by simpa [NoStrictFault] using h
  badByte _ _ h := ⟨h.1, rfl⟩
  advanced p s h := by
    rcases advance_cases p s with ⟨-, ha⟩ | ⟨-, -, ha⟩ | ⟨-, hs, -⟩
    · exact ha ▸ h
    · exact ha ▸ h
    · exact absurd hs (by simp [h.1])

/-- Settles O55: making the mode lenient is a change of view that excuses the strict faults alone, and no operation
raises one in lenient mode. -/
theorem strictDiffersOnlyInFaults : Obligations.StrictDiffersOnlyInFaults := by
  refine ⟨fun s t ht hok => ?_, fun s t ht hs => ?_⟩
  · exact (recastOk_lenient.step ht).resolve_left fun hx => by simp [hok, Excused] at hx
  · have hrun := (step_next_cases ht).1
    exact (keptByOps_noStrictFault.step ⟨hs, by simp [hrun, Status.isStrictFault]⟩ ht).2

end Sys2Proof.Machine

/-! # The step cycle, the frames and the index of the active stack -/

namespace Sys2Proof.Machine

open Sys2Proof.Rules

/-! ### The step cycle (R27 to R29, R36) -/

/-- A running machine that waits for nothing and fetches an opcode runs it and ends the cycle (R27). -/
theorem step_of_fetch {s : State} {i : Instr} (hs : s.status = .running) (hio : s.io = none) (hf : fetch s = .op i) :
    step s = finish s.pc (exec i (traceOut i s)) := by
  obtain ⟨u, hu⟩ := exec_next i (traceOut i s)
  rw [step_of_exec hs hio hf hu, hu, finish_next]

/-- A step that fetched an opcode ran it and ended the cycle (R27). -/
theorem step_ran_fetched {s t : State} {i : Instr} (hs : s.status = .running) (hio : s.io = none)
    (hf : fetch s = .op i) (h : step s = .next t) : ∃ u, exec i (traceOut i s) = .next u ∧ t = cycleEnd s.pc u := by
  obtain ⟨u, hu⟩ := exec_next i (traceOut i s)
  rw [step_of_exec hs hio hf hu] at h
  injection h with h
  exact ⟨u, hu, h.symm⟩

theorem decodeSymbol_symbol (i : Instr) : decodeSymbol (symbol i) = .ok i := by cases i <;> rfl

/-- In a packed image the fetch at an index is the nibble of the byte that holds it (R52, R59). -/
theorem fetch_packed {s : State} {b : Byte} (hpc : s.pc < s.codeLen) (hform : s.codeForm = .packed)
    (hb : Memory.read s.code (s.pc.toNat / 2) = some b) : fetch s = .op (decode (nibbleAt b s.pc.toNat)) := by
  rw [fetch_inside hpc, hform]
  simp [fetchAt, byteAddress, u64, hb, opcodeIn]

/-- In character form the fetch at a symbol is its instruction (R50, R52). -/
theorem fetch_symbol {s : State} {i : Instr} (hpc : s.pc < s.codeLen) (hform : s.codeForm = .characters)
    (hb : Memory.read s.code s.pc.toNat = some (symbol i)) : fetch s = .op i := by
  rw [fetch_inside hpc, hform]
  simp [fetchAt, byteAddress, u64, hb, opcodeIn, decodeSymbol_symbol]

/-- Settles O35: what the code holds at `pc` is what the step fetches. -/
theorem stepRunsDecodedInstruction : Obligations.StepRunsDecodedInstruction := by
  intro s i hs hio hpc _ hcode
  have hf : fetch s = .op i := by
    rcases hcode with ⟨hform, b, hb, rfl⟩ | ⟨hform, hb⟩
    · exact fetch_packed hpc hform hb
    · exact fetch_symbol hpc hform hb
  exact ⟨step_of_fetch hs hio hf, fun u hu => step_of_exec hs hio hf hu⟩

/-- The code length after an instruction that a step ran, and the mode, are those before it. -/
theorem programOf_of_traced_exec {i : Instr} {s u : State} (h : exec i (traceOut i s) = .next u) : ProgramOf s u :=
  exec_preserves (preserved_programOf s) (programOf_traceOut s i s (programOf_self s)) h

/-- Settles O37: an instruction that completes is followed by the increment and the range check. -/
theorem rangeCheckEndsStep : Obligations.RangeCheckEndsStep := by
  intro s i u hs hio hf hu hus huio n
  have hn : n = u.pc + 1#64 := by
    apply BitVec.eq_of_toNat_eq
    simp [n]
  have hstep : step s = .next (advance s.pc u) := by
    rw [step_of_exec hs hio hf hu]
    simp [cycleEnd, hus, huio]
  have hprog := programOf_of_traced_exec hu
  rw [hstep, hn, ← hprog.codeLen_eq, ← hprog.strict_eq]
  rcases advance_cases s.pc u with ⟨hlt, ha⟩ | ⟨hle, hmode, ha⟩ | ⟨hle, hmode, ha⟩ <;> rw [ha]
  · have hlt : (u.pc + 1#64).toNat < u.codeLen.toNat := hlt
    exact ⟨fun _ => rfl, fun h => absurd hlt (by omega), fun h => absurd hlt (by omega)⟩
  · have hle : u.codeLen.toNat ≤ (u.pc + 1#64).toNat := hle
    exact ⟨fun h => absurd hle (by omega), fun _ _ => rfl, fun _ h => by simp [hmode] at h⟩
  · have hle : u.codeLen.toNat ≤ (u.pc + 1#64).toNat := hle
    exact ⟨fun h => absurd hle (by omega), fun _ h => by simp [hmode] at h, fun _ _ => ⟨_, rfl, rfl⟩⟩

/-- The end of the cycle writes neither `i` nor a transaction. -/
@[simp] theorem cycleEnd_active (p : Word) (u : State) : (cycleEnd p u).active = u.active := by
  rcases cycleEnd_cases p u with ⟨-, -, hc⟩ | ⟨-, hc⟩ <;> rw [hc]
  rcases advance_cases p u with ⟨-, ha⟩ | ⟨-, -, ha⟩ | ⟨-, -, ha⟩ <;> rw [ha] <;> rfl

@[simp] theorem cycleEnd_io (p : Word) (u : State) : (cycleEnd p u).io = u.io := by
  rcases cycleEnd_cases p u with ⟨-, -, hc⟩ | ⟨-, hc⟩ <;> rw [hc]
  rcases advance_cases p u with ⟨-, ha⟩ | ⟨-, -, ha⟩ | ⟨-, -, ha⟩ <;> rw [ha] <;> rfl

/-- A stopped machine ends the step before the increment (R28). -/
theorem cycleEnd_of_stopped {p : Word} {u : State} (h : u.status ≠ .running) : cycleEnd p u = u := by
  rcases cycleEnd_cases p u with ⟨hs, -, -⟩ | ⟨-, hc⟩
  · exact absurd hs h
  · exact hc

/-- A cycle whose end still runs and waits for nothing has completed: the increment stood, or wrapped in lenient
mode (R27, R29). -/
theorem cycleEnd_running_pc {p : Word} {u : State} (hs : (cycleEnd p u).status = .running)
    (hio : (cycleEnd p u).io = none) :
    (u.pc + 1#64 < u.codeLen ∧ (cycleEnd p u).pc = u.pc + 1#64) ∨
    (u.codeLen ≤ u.pc + 1#64 ∧ u.strict = false ∧ (cycleEnd p u).pc = 0#64) := by
  rcases cycleEnd_cases p u with ⟨-, -, hc⟩ | ⟨hstop, hc⟩ <;> rw [hc] at hs hio ⊢
  · rcases advance_cases p u with ⟨hlt, ha⟩ | ⟨hle, hmode, ha⟩ | ⟨-, -, ha⟩ <;> rw [ha] at hs ⊢
    · exact .inl ⟨hlt, rfl⟩
    · exact .inr ⟨hle, hmode, rfl⟩
    · cases hs
  · simp [hs, hio] at hstop

/-- A cycle that ends stopped, but not by the range check, ended with its instruction. -/
theorem cycleEnd_stopped {p : Word} {u : State} (hs : (cycleEnd p u).status ≠ .running)
    (hrange : ∀ n, (cycleEnd p u).status ≠ .faulted (.outOfCode p n)) : cycleEnd p u = u := by
  rcases cycleEnd_cases p u with ⟨hu, -, hc⟩ | ⟨-, hc⟩
  · rw [hc] at hs hrange
    rcases advance_cases p u with ⟨-, ha⟩ | ⟨-, -, ha⟩ | ⟨-, -, ha⟩
    · exact absurd hu (by simpa [ha] using hs)
    · exact absurd hu (by simpa [ha] using hs)
    · exact absurd (by rw [ha]; rfl) (hrange (u.pc + 1#64))
  · exact hc

/-- An instruction that stops a running machine leaves `pc` (R28). -/
theorem exec_stopped_pc {i : Instr} {s u : State} (h : exec i s = .next u) (hs : s.status = .running)
    (hu : u.status ≠ .running) : u.pc = s.pc := by
  by_cases hi : i = .jmp
  · subst hi
    rcases execJmp_cases h with ⟨l, a, -, -, rfl⟩ | ⟨l, -, rfl⟩ | ⟨-, -, rfl⟩ | ⟨-, -, rfl⟩
    · exact absurd hs (by simpa using hu)
    · simp
    · simp
    · simp
  · exact exec_pc hi h

/-- The index after a completed cycle of an instruction at `s.pc` that left `pc`: one more, or 0 past the end in
lenient mode. -/
theorem next_pc_toNat {s t : State} (hpc : s.pc < s.codeLen)
    (h : (s.pc + 1#64 < s.codeLen ∧ t.pc = s.pc + 1#64) ∨
      (s.codeLen ≤ s.pc + 1#64 ∧ s.strict = false ∧ t.pc = 0#64)) :
    (s.pc.toNat + 1 < s.codeLen.toNat → t.pc.toNat = s.pc.toNat + 1) ∧
    (s.codeLen.toNat ≤ s.pc.toNat + 1 → s.strict = false ∧ t.pc = 0#64) := by
  have hlt : s.pc.toNat < s.codeLen.toNat := hpc
  have hbound := s.codeLen.isLt
  have hinc : (s.pc + 1#64).toNat = s.pc.toNat + 1 := by
    simp only [BitVec.toNat_add, BitVec.toNat_ofNat]
    omega
  rw [BitVec.lt_def, BitVec.le_def, hinc] at h
  rcases h with ⟨h1, h2⟩ | ⟨h1, h2⟩
  · exact ⟨fun _ => by rw [h2, hinc], fun h => absurd h (by omega)⟩
  · exact ⟨fun h => absurd h (by omega), fun _ => h2⟩

/-- What a `@` whose step leaves the machine running did: it popped an offset other than −1 and added it to `pc`, and
the cycle completed (R160, R161). -/
theorem jump_running_pc {s u : State} {p : Word} (h : exec .jmp s = .next u) (hio : s.io = none)
    (hs : (cycleEnd p u).status = .running) :
    ∃ a, a ≠ minusOne ∧ a ∈ (s.stack s.active).getLast? ∧
      ((cycleEnd p u).pc = s.pc + a + 1#64 ∨ s.strict = false ∧ (cycleEnd p u).pc = 0#64) := by
  rcases execJmp_cases h with ⟨l, a, hl, ha, rfl⟩ | ⟨l, -, rfl⟩ | ⟨-, -, rfl⟩ | ⟨-, -, rfl⟩
  · refine ⟨a, ha, by simp [hl], ?_⟩
    rcases cycleEnd_running_pc hs (by simpa using hio) with ⟨-, hpc⟩ | ⟨-, hmode, hpc⟩
    · exact .inl (by simpa using hpc)
    · exact .inr ⟨by simpa using hmode, hpc⟩
  all_goals
    rw [cycleEnd_of_stopped (by simp)] at hs
    simp at hs

/-- Settles O36: only `@` writes `pc` in `Execute`, and the increment is made only where the instruction completes. -/
theorem pcAdvancesByOne : Obligations.PcAdvancesByOne := by
  refine ⟨fun i s t hi h => exec_pc hi h, fun i s t hs hio hf h => ?_⟩
  obtain ⟨u, hu, rfl⟩ := step_ran_fetched hs hio hf h
  have hprog := programOf_of_traced_exec hu
  have hstopped : (cycleEnd s.pc u).status ≠ .running →
      (∀ n, (cycleEnd s.pc u).status ≠ .faulted (.outOfCode s.pc n)) → (cycleEnd s.pc u).pc = s.pc := by
    intro hstop hrange
    have hend := cycleEnd_stopped hstop hrange
    rw [hend] at hstop ⊢
    simpa using exec_stopped_pc hu (by simpa using hs) hstop
  refine ⟨fun hi hts htio => ?_, fun hi hts => ?_, fun hts => ?_, fun k hts => ?_⟩
  · have hpc : u.pc = s.pc := by simpa using exec_pc hi hu
    refine next_pc_toNat (fetch_op hf).1 ?_
    have hend := cycleEnd_running_pc hts htio
    rwa [hpc, hprog.codeLen_eq, hprog.strict_eq] at hend
  · subst hi
    obtain ⟨a, ha, htop, hpc⟩ := jump_running_pc hu (by simpa using hio) hts
    exact ⟨a, ha, by simpa using htop, by simpa using hpc⟩
  · exact hstopped (by simp [hts]) (by simp [hts])
  · exact hstopped (by rcases hts with h | h <;> simp [h]) (by rcases hts with h | h <;> simp [h])

/-- Settles O39: a stopped machine has no step, and `EXIT_FAULT` is a successor. -/
theorem stoppedIsFinal : Obligations.StoppedIsFinal :=
  ⟨fun _ hs => step_fault_iff.mpr (.inl ⟨hs, rfl⟩), rfl, fun _ => ⟨_, rfl, Nat.succ_ne_zero _⟩⟩

/-! ### What a step never writes -/

/-- Settles O42: every write of an instruction keeps the configuration and the code. -/
theorem stepKeepsCodeAndConfig : Obligations.StepKeepsCodeAndConfig := fun _ _ h => step_programOf h

/-- A step that fetched no `$` keeps `i`. -/
theorem step_active {s t : State} (h : step s = .next t) (hf : fetch s ≠ .op .sws) : t.active = s.active := by
  obtain ⟨-, ⟨i, u, -, -, hi, hu, rfl⟩ | ⟨b, -, -, -, rfl⟩ | ⟨u, -, hu, rfl⟩ | ⟨b, -, rfl⟩⟩ := step_next_cases h
  · have hne : i ≠ .sws := by rintro rfl; exact hf hi
    simpa using exec_active hne hu
  · rfl
  · simpa using exec_active (by decide) hu
  · simp

/-- `~` on two non-empty stacks within their capacity exchanges the tops, whatever `i` is (R151). -/
theorem execXch_tops {s : State} {l m : List Word} {x y : Word} (hd : s.DepthOk) (h0 : s.stack0 = l ++ [x])
    (h1 : s.stack1 = m ++ [y]) : exec .xch s = .next { s with stack0 := l ++ [y], stack1 := m ++ [x] } := by
  have hroom0 : s.stackDepth ≠ some l.length := depthOk_room_below (k := .s0) hd h0
  have hroom1 : s.stackDepth ≠ some m.length := depthOk_room_below (k := .s1) hd h1
  have hx : pop .s0 s = .ok (x, s.setStack .s0 l) := pop_concat h0
  have hy : pop .s1 (s.setStack .s0 l) = .ok (y, (s.setStack .s0 l).setStack .s1 m) := pop_concat (by simpa using h1)
  have hpush := exchange_pushes (s := (s.setStack .s0 l).setStack .s1 m) (x := x) (y := y)
    (by simpa using hroom0) (by simpa using hroom1)
  simp only [exec, execXch, exchange, hx, hy, Result.bind_ok]
  rw [hpush]
  rfl

/-- Settles O40: no instruction but `$` writes `i`, no other end of a step does, and `~` names both stacks. -/
theorem onlySwitchWritesIndex : Obligations.OnlySwitchWritesIndex := by
  refine ⟨fun i s t h => ⟨fun hi => exec_active hi h, ?_⟩, fun s t h hne => ?_, fun s l m x y hd h0 h1 => ?_⟩
  · rintro rfl
    rw [execSws_eq h]
    exact flipStack_ne s.active
  · by_contra hf
    exact hne (step_active h hf)
  · exact ⟨_, execXch_tops hd h0 h1, rfl, rfl, rfl⟩

/-! ### The instructions on the active stack alone (R22, R23) -/

/-- `u` is `s` but for its active stack, and all of that but `n` words from the top is still there. -/
def KeptBelow (s : State) (n : Nat) (u : State) : Prop :=
  ∃ l, (s.stack s.active).take ((s.stack s.active).length - n) <+: l ∧ u = s.setStack s.active l

/-- A fault raised where at most two words of the active stack had been taken. -/
def RaisedBelow (s u : State) : Prop := ∃ f v, KeptBelow s 2 v ∧ u = raise f v

theorem keptBelow_self (s : State) (n : Nat) : KeptBelow s n s :=
  ⟨s.stack s.active, List.take_prefix _ _, (setStack_stack_self s s.active).symm⟩

theorem KeptBelow.mono {s u : State} {m n : Nat} (h : KeptBelow s m u) (hmn : m ≤ n) : KeptBelow s n u := by
  obtain ⟨l, hl, hu⟩ := h
  exact ⟨l, (List.take_prefix_take_left (by omega)).trans hl, hu⟩

/-- A list that lost its last word keeps what lies one word deeper. -/
theorem take_prefix_of_prefix_concat {S l : List Word} {v : Word} {n : Nat}
    (h : S.take (S.length - n) <+: l ++ [v]) : S.take (S.length - (n + 1)) <+: l := by
  have hq : S.take (S.length - (n + 1)) <+: l ++ [v] := (List.take_prefix_take_left (by omega)).trans h
  have hlen := h.length_le
  refine List.prefix_of_prefix_length_le hq (List.prefix_append l [v]) ?_
  simp at hlen ⊢
  omega

/-- A pop reaches one word deeper (R55). -/
theorem KeptBelow.pop {s u : State} {n : Nat} (hn : n ≤ 2) (h : KeptBelow s n u) :
    (pop s.active u).Sat (RaisedBelow s) fun a => KeptBelow s (n + 1) a.2 := by
  rcases pop_cases s.active u with ⟨l, v, hl, hp⟩ | ⟨-, -, hp⟩ | ⟨-, -, hp⟩ <;> rw [hp]
  · obtain ⟨l', hl', rfl⟩ := h
    rw [setStack_stack_same] at hl
    subst hl
    exact ⟨l, take_prefix_of_prefix_concat hl', by simp⟩
  · exact h.mono (by omega)
  · exact ⟨_, u, h.mono hn, rfl⟩

/-- A push keeps what is there (R56). -/
theorem KeptBelow.push {s u : State} {n : Nat} (hn : n ≤ 2) (h : KeptBelow s n u) (v : Word) :
    (push s.active v u).Sat (RaisedBelow s) (KeptBelow s n) := by
  rcases push_cases s.active v u with ⟨-, hp⟩ | ⟨-, hp⟩ <;> rw [hp]
  · obtain ⟨l, hl, rfl⟩ := h
    exact ⟨l ++ [v], hl.trans (List.prefix_append l [v]), by simp⟩
  · exact ⟨_, u, h.mono hn, rfl⟩

theorem unary_keptBelow (f : Word → Word) (s : State) : (unary f s).Sat (RaisedBelow s) (KeptBelow s 1) :=
  Result.sat_bind ((keptBelow_self s 0).pop (by decide)) fun _ h1 => h1.push (by decide) _

theorem binary_keptBelow (f : Word → Word → Word) (s : State) : (binary f s).Sat (RaisedBelow s) (KeptBelow s 2) :=
  Result.sat_bind ((keptBelow_self s 0).pop (by decide)) fun _ h1 =>
    Result.sat_bind (h1.pop (by decide)) fun _ h2 => h2.push (by decide) _

theorem duplicate_keptBelow (s : State) : (duplicate s).Sat (RaisedBelow s) (KeptBelow s 1) :=
  Result.sat_bind ((keptBelow_self s 0).pop (by decide)) fun _ h1 =>
    Result.sat_bind (h1.push (by decide) _) fun _ h2 => h2.push (by decide) _

/-- Everything an instruction on the active stack alone can write: that stack down to its two top words, or such a
write and a fault. -/
theorem exec_keptBelow {i : Instr} {s t : State} (hi : i ∈ activeStackInstrs) (h : exec i s = .next t) :
    KeptBelow s 2 t ∨ RaisedBelow s t := by
  cases i
  case pushm1 => exact Result.sat_outcome ((keptBelow_self s 2).push (by decide) _) h
  case dup => exact (Result.sat_outcome (duplicate_keptBelow s) h).imp_left fun hk => hk.mono (by decide)
  case shl0 | shl1 => exact (Result.sat_outcome (unary_keptBelow _ s) h).imp_left fun hk => hk.mono (by decide)
  case sws | xch | jmp | inp | out => exact absurd hi (by decide)
  all_goals exact Result.sat_outcome (binary_keptBelow _ s) h

/-- Settles O29: the instruction is a write of the active stack, with at most a fault on top of it. -/
theorem frameActiveStackInstrs : Obligations.FrameActiveStackInstrs := by
  intro i s t hi h
  have hprog := (exec_programOf h).1
  rcases exec_keptBelow hi h with ⟨l, hl, rfl⟩ | ⟨f, _, ⟨l, hl, rfl⟩, rfl⟩
  · exact ⟨fun k hk => setStack_stack_other s hk l, by simpa using hl, by simp, by simp, hprog, by simp [SamePorts],
      .inl (by simp)⟩
  · exact ⟨fun k hk => by simpa using setStack_stack_other s hk l, by simpa using hl, by simp, by simp, hprog,
      by simp [SamePorts], .inr ⟨f, by simp⟩⟩

/-! ### The idiom of conditional branches (R34) -/

theorem div64_self (x : Word) : div64 x x = if x = 0#64 then 0#64 else 1#64 := by
  have hzero : s64 x = 0 ↔ x = 0#64 := by
    rw [show (0 : Int) = (0#64 : Word).toInt from rfl]
    exact BitVec.toInt_inj
  unfold div64
  by_cases hx : x = 0#64
  · simp [hx, s64]
  · rw [if_neg (mt hzero.mp hx), if_neg hx, Int.tdiv_self (mt hzero.mp hx)]
    rfl

/-- An instruction of a sequence that leaves the machine running and waiting for nothing hands over to the rest. -/
theorem execSeq_cons {i : Instr} {rest : List Instr} {s u : State} (h : exec i s = .next u) (hs : u.status = .running)
    (hio : u.io = none) : execSeq (i :: rest) s = execSeq rest u := by
  simp [execSeq, h, hs, hio]

/-- `=` on a non-empty stack with room for one more word (R152). -/
theorem execDup_top {s : State} {l : List Word} {x : Word} (h : s.stack s.active = l ++ [x]) (hd : s.DepthOk)
    (hroom : s.stackDepth ≠ some (l.length + 1)) : exec .dup s = .next (s.setStack s.active (l ++ [x, x])) := by
  have hpush := push_ok (s := s) (k := s.active) (by simpa [h] using hroom) x
  simp only [exec, execDup, duplicate_top h (depthOk_room_below hd h), hpush, Result.outcome_ok]
  simp [h]

/-- `/` on two words of a stack within its capacity (R137). -/
theorem execDiv_pair {s : State} {l : List Word} {a b : Word} (h : s.stack s.active = l ++ [a] ++ [b])
    (hroom : s.stackDepth ≠ some l.length) : exec .div s = .next (s.setStack s.active (l ++ [div64 a b])) := by
  have hpush := push_ok (s := s.setStack s.active l) (k := s.active) (by simpa using hroom) (div64 a b)
  simp only [exec, execDiv, binary_pair div64 h, hpush, Result.outcome_ok]
  simp

/-- Settles O15: `=` leaves two copies of `x`, and `/` replaces them by `x / x`. -/
theorem dupDivTestsZero : Obligations.DupDivTestsZero := by
  intro s l x hs hio hd hx hroom
  rw [execSeq_cons (execDup_top hx hd hroom) (by simpa using hs) (by simpa using hio)]
  have hdiv : exec .div (s.setStack s.active (l ++ [x, x])) = .next (s.setStack s.active (l ++ [div64 x x])) := by
    simpa using execDiv_pair (s := s.setStack s.active (l ++ [x, x])) (l := l) (a := x) (b := x) (by simp)
      (by simpa using depthOk_room_below hd hx)
  rw [execSeq_cons hdiv (by simpa using hs) (by simpa using hio), div64_self]
  rfl

/-! ### Reset (R41) -/

/-- Settles O46: every value is the one the reset state is written with. -/
theorem resetValues : Obligations.ResetValues := ⟨rfl, rfl, rfl, rfl, rfl, rfl, rfl, rfl, rfl⟩

end Sys2Proof.Machine

/-! # Code memory and the streams: what a launch puts where a fetch reads it, and what a step does to the streams -/

namespace Sys2Proof.Machine

open Sys2Proof.Rules

/-! ### What a launch leaves (R220) -/

/-- A launch that is not refused leaves the launch state of a code whose length a word can hold (R10). -/
theorem launch_ok {p : LaunchParams} {form : CodeForm} {codeLen : Nat} {bytes : List Byte} {s : State}
    (h : launch p form codeLen bytes = .ok s) : codeLen < 2 ^ 64 ∧ s = launchState p form codeLen bytes := by
  unfold launch at h
  split_ifs at h with hzero hlong hdepth
  injection h with h
  exact ⟨Nat.lt_of_not_le hlong, h.symm⟩

@[simp] theorem launchState_codeForm (p : LaunchParams) (form : CodeForm) (codeLen : Nat) (bytes : List Byte) :
    (launchState p form codeLen bytes).codeForm = form := rfl

@[simp] theorem launchState_codeLen (p : LaunchParams) (form : CodeForm) (codeLen : Nat) (bytes : List Byte) :
    (launchState p form codeLen bytes).codeLen = BitVec.ofNat 64 codeLen := rfl

/-- Code memory after a launch holds byte `a` of the image at address `a`. -/
@[simp] theorem read_launchState (p : LaunchParams) (form : CodeForm) (codeLen : Nat) (bytes : List Byte) (a : Nat) :
    Memory.read (launchState p form codeLen bytes).code a = bytes[a]? := by
  simp [launchState, Memory.read_load]

/-- Where the code length fits a word (R10), an index below it is inside the code as a word and is that word's
value. -/
theorem index_inside_launchState {p : LaunchParams} {form : CodeForm} {codeLen n : Nat} {bytes : List Byte}
    (hn : n < codeLen) (hlen : codeLen < 2 ^ 64) :
    BitVec.ofNat 64 n < (launchState p form codeLen bytes).codeLen ∧ (BitVec.ofNat 64 n).toNat = n := by
  have hindex : (BitVec.ofNat 64 n).toNat = n := Nat.mod_eq_of_lt (hn.trans hlen)
  have hlength : (BitVec.ofNat 64 codeLen).toNat = codeLen := Nat.mod_eq_of_lt hlen
  exact ⟨by rw [launchState_codeLen, BitVec.lt_def, hindex, hlength]; exact hn, hindex⟩

/-! ### Fetch from a packed image (R52, R89) -/

/-- Opcode `n` of the unpacked image is the nibble that index `n` selects in byte `n / 2`. -/
theorem unpack_getElem? (img : List Byte) (n : Nat) :
    (unpack img)[n]? = img[n / 2]?.map fun b => decode (nibbleAt b n) := by
  induction img generalizing n with
  | nil => simp [unpack]
  | cons b rest ih =>
    match n with
    | 0 => rfl
    | 1 => rfl
    | n + 2 =>
      have hhalf : (n + 2) / 2 = n / 2 + 1 := by omega
      simp [unpack, ih, hhalf, nibbleAt]

/-- Settles O5: index `n` selects, in the byte that the launch put at address `n / 2`, the nibble the unpacker takes. -/
theorem fetchOfImageIsUnpack : Obligations.FetchOfImageIsUnpack := by
  intro p img s h
  obtain ⟨hlen, rfl⟩ := launch_ok h
  refine ⟨by simpa using Nat.mod_eq_of_lt hlen, fun n i hi => ?_⟩
  rw [unpack_getElem?] at hi
  obtain ⟨b, hb, rfl⟩ := Option.map_eq_some_iff.mp hi
  have hbyte : n / 2 < img.length := (List.getElem?_eq_some_iff.mp hb).1
  obtain ⟨hin, hpc⟩ := index_inside_launchState (p := p) (form := .packed) (bytes := img)
    (show n < 2 * img.length by omega) hlen
  have hread : Memory.read (launchState p .packed (2 * img.length) img).code (n / 2) = some b := by simpa using hb
  have hfetch := fetch_packed (s := (launchState p .packed _ img).setPc (BitVec.ofNat 64 n)) hin rfl
    (by rwa [setPc_pc, hpc])
  rwa [setPc_pc, hpc] at hfetch

/-! ### Fetch from characters (R52, R87) -/

theorem decodeSymbol_of_notMem {b : Byte} (h : b ∉ alphabet) : decodeSymbol b = .error (.notInAlphabet b) := by
  unfold decodeSymbol
  split
  case h_17 => rfl
  all_goals exact absurd (by decide) h

/-- In character form the fetch at a byte outside the alphabet finds no opcode (R87). -/
theorem fetch_notMem {s : State} {b : Byte} (hpc : s.pc < s.codeLen) (hform : s.codeForm = .characters)
    (hb : Memory.read s.code s.pc.toNat = some b) (hmem : b ∉ alphabet) : fetch s = .badByte b := by
  rw [fetch_inside hpc, hform]
  simp [fetchAt, byteAddress, u64, hb, opcodeIn, decodeSymbol_of_notMem hmem]

/-- Settles O6: the launch put character `n` at address `n`, where the fetch at index `n` reads it. -/
theorem fetchOfCharacters : Obligations.FetchOfCharacters := by
  intro p chars s h
  obtain ⟨hlen, rfl⟩ := launch_ok h
  refine ⟨by simpa using Nat.mod_eq_of_lt hlen, fun n b hb => ?_⟩
  have hn : n < chars.length := (List.getElem?_eq_some_iff.mp hb).1
  obtain ⟨hin, hpc⟩ := index_inside_launchState (p := p) (form := .characters) (bytes := chars) hn hlen
  have hread : Memory.read (launchState p .characters chars.length chars).code (BitVec.ofNat 64 n).toNat = some b := by
    simpa [hpc] using hb
  exact ⟨fun i hi => fetch_symbol hin rfl (hi ▸ hread), fetch_notMem hin rfl hread⟩

/-! ### The streams (R61, R64) -/

/-- From `s` to `t` nothing is written or read at the ports, and the diagnostic sink only grows. -/
structure OnlyDiagGrows (s t : State) : Prop where
  output : t.output = s.output
  input : t.input = s.input
  diag : s.diag <+: t.diag

/-- From `s` to `t` both sinks only grow and answers leave the input from its front, at most one byte each way. -/
structure StreamsGrow (s t : State) : Prop where
  output : s.output <+: t.output
  diag : s.diag <+: t.diag
  input : t.input <:+ s.input
  oneByte : t.output.length ≤ s.output.length + 1
  oneAnswer : s.input.length ≤ t.input.length + 1

theorem OnlyDiagGrows.streamsGrow {s t : State} (h : OnlyDiagGrows s t) : StreamsGrow s t := by
  obtain ⟨hout, hin, hdiag⟩ := h
  exact ⟨by simp [hout], hdiag, by simp [hin], by simp [hout], by simp [hin]⟩

theorem OnlyDiagGrows.trans_streamsGrow {s t u : State} (h : OnlyDiagGrows s t) (h' : StreamsGrow t u) :
    StreamsGrow s u := by
  obtain ⟨hout, hin, hdiag⟩ := h
  obtain ⟨hout', hdiag', hin', hbyte, hanswer⟩ := h'
  exact ⟨hout ▸ hout', hdiag.trans hdiag', hin ▸ hin', hout ▸ hbyte, hin ▸ hanswer⟩

theorem StreamsGrow.trans_onlyDiagGrows {s t u : State} (h : StreamsGrow s t) (h' : OnlyDiagGrows t u) :
    StreamsGrow s u := by
  obtain ⟨hout, hdiag, hin, hbyte, hanswer⟩ := h
  obtain ⟨hout', hin', hdiag'⟩ := h'
  exact ⟨hout' ▸ hout, hdiag.trans hdiag', hin' ▸ hin, hout' ▸ hbyte, hin' ▸ hanswer⟩

theorem onlyDiagGrows_raise (f : VmFault) (s : State) : OnlyDiagGrows s (raise f s) :=
  ⟨rfl, rfl, List.prefix_append _ _⟩

theorem onlyDiagGrows_traceOut (i : Instr) (s : State) : OnlyDiagGrows s (traceOut i s) := by
  refine ⟨traceOut_output i s, traceOut_input i s, ?_⟩
  rw [traceOut_diag]
  exact List.prefix_append _ _

/-- The increment and the range check write no port; a fault adds its line to the diagnostic sink (R193). -/
theorem onlyDiagGrows_cycleEnd (p : Word) (s : State) : OnlyDiagGrows s (cycleEnd p s) := by
  rcases cycleEnd_cases p s with ⟨-, -, hc⟩ | ⟨-, hc⟩ <;> rw [hc]
  · rcases advance_cases p s with ⟨-, ha⟩ | ⟨-, -, ha⟩ | ⟨-, -, ha⟩ <;> rw [ha]
    · exact ⟨rfl, rfl, List.prefix_rfl⟩
    · exact ⟨rfl, rfl, List.prefix_rfl⟩
    · exact ⟨rfl, rfl, List.prefix_append _ _⟩
  · exact ⟨rfl, rfl, List.prefix_rfl⟩

/-- An output transaction adds its byte where the host accepts it, and else nothing (R172). -/
theorem streamsGrow_outWrite (b : Byte) (s : State) : StreamsGrow s (outWrite b s) := by
  rcases outWrite_cases b s with ⟨-, hw⟩ | ⟨-, hw⟩ <;> rw [hw]
  · exact ⟨List.prefix_append _ _, List.prefix_rfl, List.suffix_rfl, by simp, by simp⟩
  · exact OnlyDiagGrows.streamsGrow ⟨rfl, rfl, List.prefix_rfl⟩

/-- Taking the first answer is all that `?` does to the streams before it pushes (R171). -/
theorem streamsGrow_takeInput {s : State} {r : InAnswer} {rest : List InAnswer} (h : s.input = r :: rest) :
    StreamsGrow s (s.takeInput rest) :=
  ⟨List.prefix_rfl, List.prefix_rfl, by simp [h], by simp, by simp [h]⟩

theorem onlyDiagGrows_setStack (s : State) (k : StackId) (l : List Word) : OnlyDiagGrows s (s.setStack k l) :=
  ⟨by simp, by simp, by simp⟩

/-- Every instruction leaves the streams alone but for a fault's line, one answer taken or one byte written. -/
theorem exec_streamsGrow {i : Instr} {s t : State} (h : exec i s = .next t) : StreamsGrow s t := by
  rcases instr_kinds i with hk | rfl | rfl | rfl | rfl
  · obtain ⟨l, m, rfl | ⟨f, rfl⟩⟩ := exec_stackInstr_cases hk h
    · exact OnlyDiagGrows.streamsGrow ⟨rfl, rfl, List.prefix_rfl⟩
    · exact OnlyDiagGrows.streamsGrow ⟨rfl, rfl, List.prefix_append _ _⟩
  · rw [execSws_eq h]
    exact OnlyDiagGrows.streamsGrow ⟨rfl, rfl, List.prefix_rfl⟩
  · rcases execJmp_cases h with ⟨l, a, -, -, rfl⟩ | ⟨l, -, rfl⟩ | ⟨-, -, rfl⟩ | ⟨-, -, rfl⟩
    · exact OnlyDiagGrows.streamsGrow ⟨by simp, by simp, by simp⟩
    · exact OnlyDiagGrows.streamsGrow ⟨by simp, by simp, by simp⟩
    · exact OnlyDiagGrows.streamsGrow ⟨rfl, rfl, List.prefix_rfl⟩
    · exact (onlyDiagGrows_raise _ _).streamsGrow
  · rcases execInp_cases h with ⟨-, rfl⟩ | ⟨r, rest, hin, -, rfl⟩ | ⟨r, rest, hin, -, rfl⟩
    · exact OnlyDiagGrows.streamsGrow ⟨rfl, rfl, List.prefix_rfl⟩
    · exact (streamsGrow_takeInput hin).trans_onlyDiagGrows (onlyDiagGrows_setStack _ _ _)
    · exact (streamsGrow_takeInput hin).trans_onlyDiagGrows (onlyDiagGrows_raise _ _)
  · rcases execOut_cases h with ⟨l, a, -, rfl⟩ | ⟨-, -, rfl⟩ | ⟨-, -, rfl⟩
    · exact (onlyDiagGrows_setStack _ _ _).trans_streamsGrow (streamsGrow_outWrite _ _)
    · exact streamsGrow_outWrite _ _
    · exact (onlyDiagGrows_raise _ _).streamsGrow

theorem step_streamsGrow {s t : State} (h : step s = .next t) : StreamsGrow s t := by
  obtain ⟨-, ⟨i, u, -, -, -, hu, rfl⟩ | ⟨b, -, -, -, rfl⟩ | ⟨u, -, hu, rfl⟩ | ⟨b, -, rfl⟩⟩ := step_next_cases h
  · exact ((onlyDiagGrows_traceOut i s).trans_streamsGrow (exec_streamsGrow hu)).trans_onlyDiagGrows
      (onlyDiagGrows_cycleEnd _ _)
  · exact (onlyDiagGrows_raise _ _).streamsGrow
  · exact (exec_streamsGrow hu).trans_onlyDiagGrows (onlyDiagGrows_cycleEnd _ _)
  · exact (streamsGrow_outWrite b s).trans_onlyDiagGrows (onlyDiagGrows_cycleEnd _ _)

/-- Settles O43: of a step's parts only the instruction, or the output that waited, touches the ports, and it does so
once. -/
theorem streamsOnlyGrow : Obligations.StreamsOnlyGrow := by
  intro s t h
  obtain ⟨hout, hdiag, hin, hbyte, hanswer⟩ := step_streamsGrow h
  exact ⟨hout, hdiag, hin, hbyte, hanswer⟩

end Sys2Proof.Machine

/-! # Encoding: opcodes and nibbles, images, bytes outside the alphabet, and the expansion of a literal -/

namespace Sys2Proof.Machine

/-! ### Opcodes (R82, R83) -/

@[simp] theorem decode_encode (i : Instr) : decode (encode i) = i := by cases i <;> rfl

@[simp] theorem encode_decode (op : Nibble) : encode (decode op) = op := by
  revert op
  decide

/-! ### The two nibbles of a packed byte (R52, R88) -/

@[simp] theorem highNibble_packByte (even odd : Nibble) : highNibble (packByte even odd) = even :=
  BitVec.extractLsb'_append_eq_left

@[simp] theorem lowNibble_packByte (even odd : Nibble) : lowNibble (packByte even odd) = odd :=
  BitVec.extractLsb'_append_eq_right

@[simp] theorem packByte_nibbles (b : Byte) : packByte (highNibble b) (lowNibble b) = b :=
  BitVec.extractLsb'_append_extractLsb' (w := 4) (len := 4)

/-- Settles O1: the two maps are inverse case by case, and a table word's opcode is the high nibble of its byte. -/
theorem decodeEncodeAgree : Obligations.DecodeEncodeAgree :=
  ⟨decode_encode, encode_decode, fun i _ => by simp [decodeTableWord, nibbleAt]⟩

/-- Settles O2: the words are closed, and each is evaluated by the opcode map. -/
theorem sampleOpcodesDecode : Obligations.SampleOpcodesDecode := by
  unfold Obligations.SampleOpcodesDecode
  decide

/-! ### Packing and unpacking (R88 to R92) -/

theorem pack_unpack (img : List Byte) : pack (unpack img) = img := by
  induction img with
  | nil => rfl
  | cons b rest ih => simp [unpack, pack, ih]

theorem unpack_pack_of_even (c : List Instr) (h : c.length % 2 = 0) : unpack (pack c) = c := by
  induction c using pack.induct with
  | case1 => rfl
  | case2 i => simp at h
  | case3 i j rest ih =>
    have hrest : rest.length % 2 = 0 := by simpa [Nat.add_assoc] using h
    simp [pack, unpack, ih hrest]

/-- Settles O3: each byte is its two nibbles, and each nibble its instruction. -/
theorem packUnpackInverse : Obligations.PackUnpackInverse := ⟨unpack_pack_of_even, pack_unpack⟩

theorem unpack_append (a b : List Byte) : unpack (a ++ b) = unpack a ++ unpack b := by
  induction a with
  | nil => rfl
  | cons x rest ih => simp [unpack, ih]

theorem length_unpack (img : List Byte) : (unpack img).length = 2 * img.length := by
  induction img with
  | nil => rfl
  | cons b rest ih => simp [unpack, ih, Nat.mul_add]

/-- One opcode after code of even length begins a byte of its own, whose low nibble is 0 (R91). -/
theorem pack_concat_of_even (c : List Instr) (h : c.length % 2 = 0) (i : Instr) :
    pack (c ++ [i]) = pack c ++ [packByte (encode i) 0#4] := by
  induction c using pack.induct with
  | case1 => rfl
  | case2 j => simp at h
  | case3 j k rest ih =>
    have hrest : rest.length % 2 = 0 := by simpa [Nat.add_assoc] using h
    simp [pack, ih hrest]

/-- Settles O4: the code is one of even length and a last opcode, whose byte the packer fills with the nibble of `!`. -/
theorem packOddAppendsPush : Obligations.PackOddAppendsPush := by
  intro c hodd
  obtain rfl | ⟨d, i, rfl⟩ := List.eq_nil_or_concat' c
  · simp at hodd
  have heven : d.length % 2 = 0 := by
    rw [List.length_append, List.length_singleton] at hodd
    omega
  have hpack := pack_concat_of_even d heven i
  have hunpack : unpack (pack (d ++ [i])) = d ++ [i] ++ [.pushm1] := by
    rw [hpack, unpack_append, unpack_pack_of_even d heven]
    simp [unpack, show decode 0#4 = .pushm1 from rfl]
  have hlength := length_unpack (pack (d ++ [i]))
  rw [hunpack, List.length_append, List.length_singleton] at hlength
  exact ⟨hunpack, by omega, _, by rw [hpack, List.getLast?_concat], lowNibble_packByte _ _⟩

/-! ### A byte outside the alphabet (R87) -/

/-- Settles O38: the fetch finds no opcode, and the step raises before it traces or executes. -/
theorem nonAlphabetByteFaults : Obligations.NonAlphabetByteFaults := by
  intro s b hs hio hform hpc hread hmem
  have hlen : s.codeLen ≠ 0#64 := fun h => by simp [h] at hpc
  exact step_of_badByte hs hio hlen (fetch_notMem hpc hform hread hmem)

/-! ### The expansion of a literal (R114, R115) -/

theorem symbol_bitInstr (b : Bool) : symbol (bitInstr b) = if b then 0x31#8 else 0x30#8 := by cases b <;> rfl

@[simp] theorem length_expand (v : Word) : (expand v).length = 65 := by simp [expand, expandInstrs]

/-- Settles O56: `!` is followed by the image of bit `63 - j` at place `j`. -/
theorem expansionShape : Obligations.ExpansionShape := by
  intro v
  refine ⟨length_expand v, rfl, fun j hj => ?_⟩
  simp [expand, expandInstrs, hj, symbol_bitInstr]

/-- The word after `0` or `1` shifts a bit into it. -/
def shiftBit (a : Word) (b : Bool) : Word := shiftIn a (BitVec.ofBool b)

theorem getLsbD_shiftBit_zero (a : Word) (b : Bool) : (shiftBit a b).getLsbD 0 = b := by
  rw [shiftBit, shiftIn, BitVec.getLsbD_append]
  simp

theorem getLsbD_shiftBit_succ (a : Word) (b : Bool) {n : Nat} (hn : n < 63) :
    (shiftBit a b).getLsbD (n + 1) = a.getLsbD n := by
  rw [shiftBit, shiftIn, BitVec.getLsbD_append]
  simp [hn]

/-- The `k` most significant bits of `v`, bit 63 first. -/
def topBits (v : Word) (k : Nat) : List Bool := (List.range k).map fun j => v.getLsbD (63 - j)

/-- Once the top `k` bits of `v` are shifted in, they are the low `k` bits of the word: what it held before lies above
them. -/
theorem getLsbD_foldl_shiftBit (v a : Word) {k n : Nat} (hk : k ≤ 64) (hn : n < k) :
    ((topBits v k).foldl shiftBit a).getLsbD n = v.getLsbD (64 - k + n) := by
  induction k generalizing n with
  | zero => omega
  | succ k ih =>
    have hsnoc : topBits v (k + 1) = topBits v k ++ [v.getLsbD (63 - k)] := by simp [topBits, List.range_succ]
    rw [hsnoc, List.foldl_append, List.foldl_cons, List.foldl_nil]
    cases n with
    | zero =>
      rw [getLsbD_shiftBit_zero]
      congr 1
      omega
    | succ n =>
      rw [getLsbD_shiftBit_succ _ _ (by omega), ih (by omega) (by omega)]
      congr 1
      omega

/-- The 64 bits of `v` shifted into any word leave `v`. -/
theorem foldl_shiftBit_topBits (v a : Word) : (topBits v 64).foldl shiftBit a = v :=
  BitVec.eq_of_getLsbD_eq fun n hn => by simpa using getLsbD_foldl_shiftBit v a (Nat.le_refl 64) hn

/-- `0` and `1` on a non-empty stack within its capacity (R180, R181). -/
theorem exec_bitInstr (b : Bool) {s : State} {l : List Word} {a : Word} (h : s.stack s.active = l ++ [a])
    (hroom : s.stackDepth ≠ some l.length) :
    exec (bitInstr b) s = .next (s.setStack s.active (l ++ [shiftBit a b])) := by
  have hexec : exec (bitInstr b) s = (unary (shiftBit · b) s).outcome := by cases b <;> rfl
  rw [hexec, unary_top _ h, push_ok (by simpa using hroom), Result.outcome_ok]
  simp

/-- A run of shifts works on the top word alone (R182). -/
theorem execSeq_bitInstrs (bits : List Bool) {s : State} {l : List Word} {a : Word} (hs : s.status = .running)
    (hio : s.io = none) (h : s.stack s.active = l ++ [a]) (hroom : s.stackDepth ≠ some l.length) :
    execSeq (bits.map bitInstr) s = .next (s.setStack s.active (l ++ [bits.foldl shiftBit a])) := by
  induction bits generalizing s a with
  | nil => simp [execSeq, ← h]
  | cons b bits ih =>
    rw [List.map_cons, execSeq_cons (exec_bitInstr b h hroom) (by simpa using hs) (by simpa using hio),
      ih (a := shiftBit a b) (by simpa using hs) (by simpa using hio) (by simp) (by simpa using hroom)]
    simp

theorem expandInstrs_eq (v : Word) : expandInstrs v = .pushm1 :: (topBits v 64).map bitInstr := by
  simp [expandInstrs, topBits]

/-- Settles O57: `!` pushes a word, and the 64 bits of `v` shift every bit of it out. -/
theorem expansionPushesValue : Obligations.ExpansionPushesValue := by
  intro v s hs hio
  rw [expandInstrs_eq]
  constructor
  · intro hroom
    have hpush : exec .pushm1 s = .next (s.setStack s.active (s.stack s.active ++ [minusOne])) := by
      simp [exec, execPushm1, push_ok hroom]
    rw [execSeq_cons hpush (by simpa using hs) (by simpa using hio),
      execSeq_bitInstrs (topBits v 64) (l := s.stack s.active) (a := minusOne) (by simpa using hs)
        (by simpa using hio) (by simp) (by simpa using hroom), foldl_shiftBit_topBits]
    simp
  · intro hfull
    have hpush : exec .pushm1 s = .next (raise (.stackOverflow s.pc s.active) s) := by
      simp [exec, execPushm1, push_full hfull]
    exact ⟨raise (.stackOverflow s.pc s.active) s, by simp [execSeq, hpush], rfl⟩

end Sys2Proof.Machine

/-! # The front end: labels, the resolved code, and the first lexical error -/

namespace Sys2Proof.Machine

open Sys2Proof.Rules

/-! ### The label table (R104 to R108) -/

@[simp] theorem find_record_same (t : LabelTable) (n : List Byte) (v : Nat) : (t.record n v).find n = some v := by
  induction t with
  | nil => simp [LabelTable.record, LabelTable.find]
  | cons entry rest ih =>
    obtain ⟨m, w⟩ := entry
    by_cases h : m = n
    · simp [LabelTable.record, LabelTable.find, h]
    · simp [LabelTable.record, LabelTable.find, h, ih]

theorem find_record_other (t : LabelTable) {m n : List Byte} (h : m ≠ n) (v : Nat) :
    (t.record m v).find n = t.find n := by
  induction t with
  | nil => simp [LabelTable.record, LabelTable.find, h]
  | cons entry rest ih =>
    obtain ⟨m', w⟩ := entry
    by_cases hm : m' = m
    · subst hm
      simp [LabelTable.record, LabelTable.find, h]
    · simp [LabelTable.record, LabelTable.find, hm, ih]

/-- Pass 1 over a token stream cut in two: the second part starts at the widths of the first. -/
theorem passOne_append (offset : Nat) (t : LabelTable) (ts us : List Token) :
    passOne offset t (ts ++ us) = passOne (offset + totalWidth ts) (passOne offset t ts) us := by
  induction ts generalizing offset t with
  | nil => rfl
  | cons tok ts ih =>
    cases tok <;> simp [passOne, ih, totalWidth, tokenWidth, Nat.add_assoc]

/-- A name that is not declared keeps its entry. -/
theorem find_passOne_of_notMem {n : List Byte} {ts : List Token} (h : Token.label n ∉ ts) (offset : Nat)
    (t : LabelTable) : (passOne offset t ts).find n = t.find n := by
  induction ts generalizing offset t with
  | nil => rfl
  | cons tok ts ih =>
    obtain ⟨hne, hts⟩ := not_or.mp (mt List.mem_cons.mpr h)
    cases tok with
    | script v => exact ih hts _ t
    | literal b => exact ih hts _ t
    | label m => exact (ih hts _ _).trans (find_record_other t (fun hm => hne (congrArg Token.label hm.symm)) _)

/-- The last declaration of a name counts, with the widths of the tokens before it (R106). -/
theorem find_labelsOf_last {n : List Byte} {after : List Token} (h : Token.label n ∉ after) (before : List Token) :
    (labelsOf (before ++ [Token.label n] ++ after)).find n = some (totalWidth before) := by
  rw [labelsOf, passOne_append, find_passOne_of_notMem h, passOne_append]
  simp [passOne]

/-! ### What pass 2 emits (R110) -/

/-- The code a token can stand for. -/
inductive Emits : Token → List Byte → Prop
  | script (v : List Byte) : Emits (.script v) v
  | label (n : List Byte) : Emits (.label n) []
  | literal (body : List Byte) (w : Word) : Emits (.literal body) (expand w)

/-- Where pass 2 succeeds, the code is that of the first token and then that of the others. -/
theorem passTwo_cons {t : LabelTable} {tok : Token} {ts : List Token} {c : List Byte}
    (h : passTwo t (tok :: ts) = .ok c) :
    ∃ code rest, Emits tok code ∧ passTwo t ts = .ok rest ∧ c = code ++ rest := by
  cases tok with
  | script v =>
    unfold passTwo at h
    split at h
    next rest hrest => exact ⟨v, rest, .script v, hrest, (Except.ok.inj h).symm⟩
    next => cases h
  | label n => exact ⟨[], c, .label n, h, rfl⟩
  | literal b =>
    unfold passTwo at h
    split at h
    next => cases h
    next w _ =>
      split at h
      next rest hrest => exact ⟨expand w, rest, .literal b w, hrest, (Except.ok.inj h).symm⟩
      next => cases h

theorem Emits.length_eq {tok : Token} {code : List Byte} (h : Emits tok code) : code.length = tokenWidth tok := by
  cases h with
  | script v => rfl
  | label n => rfl
  | literal b w => exact length_expand w

/-- Every token is as long in the code as pass 1 took it to be (R105). -/
theorem length_of_passTwo {t : LabelTable} {ts : List Token} {c : List Byte} (h : passTwo t ts = .ok c) :
    c.length = totalWidth ts := by
  induction ts generalizing c with
  | nil => simp [← Except.ok.inj h, totalWidth]
  | cons tok ts ih =>
    obtain ⟨code, rest, hcode, hrest, rfl⟩ := passTwo_cons h
    simp [hcode.length_eq, ih hrest, totalWidth]

/-- Settles O58: pass 1 gives the widths before the last declaration, and they are the length of the code. -/
theorem labelIsCodeOffset : Obligations.LabelIsCodeOffset := by
  intro before after n c hlast hcode
  have hlength := length_of_passTwo hcode
  exact ⟨by rw [find_labelsOf_last hlast, hlength], hlength⟩

/-! ### The alphabet is all that is emitted (R87, R96, R110) -/

theorem isSymbol_iff (b : Byte) : isSymbol b = true ↔ b ∈ alphabet := List.contains_iff_mem

theorem symbol_mem_alphabet (i : Instr) : symbol i ∈ alphabet := by cases i <;> decide

/-- All bytes are in the alphabet. -/
def AllSymbols (bytes : List Byte) : Prop := ∀ b ∈ bytes, b ∈ alphabet

@[simp] theorem allSymbols_nil : AllSymbols [] := List.forall_mem_nil _

theorem allSymbols_append {a b : List Byte} (ha : AllSymbols a) (hb : AllSymbols b) : AllSymbols (a ++ b) :=
  fun x hx => (List.mem_append.mp hx).elim (ha x) (hb x)

theorem allSymbols_expand (w : Word) : AllSymbols (expand w) := by
  intro b hb
  obtain ⟨i, -, rfl⟩ := List.mem_map.mp hb
  exact symbol_mem_alphabet i

/-- A Script token carries alphabet bytes only. -/
def Token.InAlphabet : Token → Prop
  | .script v => AllSymbols v
  | .literal _ => True
  | .label _ => True

/-- The Script bytes a tokenizer state has gathered are alphabet bytes. -/
def LexMode.InAlphabet : LexMode → Prop
  | .script cur => AllSymbols cur
  | .comment cur => AllSymbols cur
  | .literal _ => True
  | .label _ => True

/-- A step of the tokenizer emits and keeps alphabet bytes only. -/
def LexInAlphabet (r : List Token × LexMode) : Prop := (∀ tok ∈ r.1, tok.InAlphabet) ∧ r.2.InAlphabet

theorem lexInAlphabet_nil {m : LexMode} (h : m.InAlphabet) : LexInAlphabet ([], m) := ⟨by simp, h⟩

theorem lexInAlphabet_singleton {tok : Token} {m : LexMode} (htok : tok.InAlphabet) (h : m.InAlphabet) :
    LexInAlphabet ([tok], m) := ⟨by simpa using htok, h⟩

/-- In Script a byte is gathered only where it is a symbol (R96). -/
theorem lexScript_inAlphabet {cur : List Byte} (h : AllSymbols cur) (b : Byte) : LexInAlphabet (lexScript cur b) := by
  unfold lexScript
  split_ifs with hsymbol hcomment hliteral hlabel
  · exact lexInAlphabet_nil (allSymbols_append h (by simpa [AllSymbols] using (isSymbol_iff b).mp hsymbol))
  · exact lexInAlphabet_nil h
  · exact lexInAlphabet_singleton h trivial
  · exact lexInAlphabet_singleton h trivial
  · exact lexInAlphabet_nil h

theorem lexByte_inAlphabet {m : LexMode} (h : m.InAlphabet) (b : Byte) : LexInAlphabet (lexByte m b) := by
  cases m with
  | script cur => exact lexScript_inAlphabet h b
  | comment cur =>
    simp only [lexByte]
    split_ifs
    · exact lexInAlphabet_nil h
    · exact lexInAlphabet_nil h
  | literal body =>
    simp only [lexByte]
    split_ifs
    · exact lexInAlphabet_singleton (m := .script []) trivial allSymbols_nil
    · exact lexInAlphabet_nil (m := .literal _) trivial
  | label name =>
    simp only [lexByte]
    split_ifs
    · exact lexInAlphabet_nil (m := .label _) trivial
    · obtain ⟨htoks, hmode⟩ := lexScript_inAlphabet allSymbols_nil b
      exact ⟨List.forall_mem_cons.mpr ⟨trivial, htoks⟩, hmode⟩

theorem lexEnd_inAlphabet {m : LexMode} {ts : List Token} (h : m.InAlphabet) (hts : lexEnd m = .ok ts) :
    ∀ tok ∈ ts, tok.InAlphabet := by
  cases m with
  | script cur =>
    obtain rfl := Except.ok.inj hts
    exact List.forall_mem_singleton.mpr h
  | comment cur =>
    obtain rfl := Except.ok.inj hts
    exact List.forall_mem_nil _
  | literal body => cases hts
  | label name =>
    obtain rfl := Except.ok.inj hts
    exact List.forall_mem_singleton.mpr trivial

theorem tokenizeFrom_inAlphabet {m : LexMode} {pos : Nat × Nat} {src : List Byte} {ts : List Token}
    (h : m.InAlphabet) (hts : tokenizeFrom m pos src = .ok ts) : ∀ tok ∈ ts, tok.InAlphabet := by
  induction src generalizing m pos ts with
  | nil => exact lexEnd_inAlphabet h hts
  | cons b rest ih =>
    obtain ⟨hemitted, hmode⟩ := lexByte_inAlphabet h b
    unfold tokenizeFrom at hts
    split at hts
    next => cases hts
    next =>
      split at hts
      next us hus =>
        obtain rfl := Except.ok.inj hts
        exact List.forall_mem_append.mpr ⟨hemitted, ih hmode hus⟩
      next => cases hts

theorem Emits.allSymbols {tok : Token} {code : List Byte} (h : Emits tok code) (htok : tok.InAlphabet) :
    AllSymbols code := by
  cases h with
  | script v => exact htok
  | label n => exact allSymbols_nil
  | literal b w => exact allSymbols_expand w

theorem passTwo_allSymbols {t : LabelTable} {ts : List Token} {c : List Byte} (hts : ∀ tok ∈ ts, tok.InAlphabet)
    (h : passTwo t ts = .ok c) : AllSymbols c := by
  induction ts generalizing c with
  | nil => simp [← Except.ok.inj h]
  | cons tok ts ih =>
    obtain ⟨code, rest, hcode, hrest, rfl⟩ := passTwo_cons h
    obtain ⟨htok, hts⟩ := List.forall_mem_cons.mp hts
    exact allSymbols_append (hcode.allSymbols htok) (ih hts hrest)

/-- Settles O59: the tokenizer gathers symbols only, and pass 2 adds the symbols of expansions. -/
theorem assembledCodeInAlphabet : Obligations.AssembledCodeInAlphabet := by
  intro src c h
  unfold assemble at h
  split at h
  next => cases h
  next ts hts =>
    have htokens := tokenizeFrom_inAlphabet (m := .script []) allSymbols_nil hts
    exact List.all_eq_true.mpr fun b hb => List.contains_iff_mem.mpr (passTwo_allSymbols htokens h b hb)

/-! ### The first byte >= 0x80 (R101) -/

/-- In every state the tokenizer reports the first byte >= 0x80 at the position the bytes before it lead to. -/
theorem tokenizeFrom_nonAscii (m : LexMode) (pos : Nat × Nat) {before : List Byte} (rest : List Byte) {b : Byte}
    (hbefore : ∀ x ∈ before, x < 0x80#8) (hb : 0x80#8 ≤ b) :
    tokenizeFrom m pos (before ++ b :: rest) =
      .error (.nonAscii (before.foldl nextPosition pos).1 (before.foldl nextPosition pos).2) := by
  induction before generalizing m pos with
  | nil => simp [tokenizeFrom, hb]
  | cons x before ih =>
    obtain ⟨hx, hbefore⟩ := List.forall_mem_cons.mp hbefore
    simp [tokenizeFrom, BitVec.not_le.mpr hx, ih _ _ hbefore]

/-- Lines are counted by their LFs, columns by the bytes other than 0x0D since the last LF (R101, D25). -/
theorem foldl_nextPosition (before : List Byte) :
    before.foldl nextPosition (1, 1) =
      (before.count 0x0A#8 + 1,
        (before.reverse.takeWhile fun x => x != 0x0A#8).countP (fun x => x != 0x0D#8) + 1) := by
  induction before using List.reverseRecOn with
  | nil => rfl
  | append_singleton before x ih =>
    rw [List.foldl_append, ih, List.foldl_cons, List.foldl_nil, nextPosition]
    by_cases hlf : x = 0x0A#8
    · simp [hlf]
    · by_cases hcr : x = 0x0D#8
      · simp [hcr]
      · simp [hlf, hcr]

/-- Settles O60: the error is at the position after the bytes before it, counted from line 1, column 1. -/
theorem nonAsciiByteReported : Obligations.NonAsciiByteReported := by
  intro before rest b hbefore hb
  rw [List.append_assoc, List.singleton_append, tokenize, tokenizeFrom_nonAscii _ _ rest hbefore hb,
    foldl_nextPosition]

end Sys2Proof.Machine

/-! # The arithmetic and logic family: the two-operand rule and the value each instruction computes (R129 to R139) -/

namespace Sys2Proof.Machine

open Sys2Proof.Rules

/-! ### The two-operand rule (R85, R129) -/

theorem minusOne_eq_allOnes : minusOne = BitVec.allOnes 64 := rfl

/-- A capacity is at least 1, so the empty stack has room for a word (D5). -/
theorem depthOk_ne_zero {s : State} (h : s.DepthOk) : s.stackDepth ≠ some 0 := fun hd => by
  obtain ⟨hpos, -⟩ := h 0 hd
  exact Nat.not_succ_le_zero 0 hpos

/-- A stack within its capacity has room for a word once it holds fewer words than it did. -/
theorem depthOk_room_of_lt {s : State} {k : StackId} {n : Nat} (h : s.DepthOk) (hn : n < (s.stack k).length) :
    s.stackDepth ≠ some n := fun hd => Nat.not_lt.mpr (depthOk_stack h k n hd) hn

/-- A push on the stack that pops have left (R56). -/
theorem push_setStack {s : State} {k : StackId} {l : List Word} (h : s.stackDepth ≠ some l.length) (v : Word) :
    push k v (s.setStack k l) = .ok (s.setStack k (l ++ [v])) := by
  rw [push_ok (by simpa using h)]
  simp

/-- An instruction that has the two-operand form over `f` follows the two-operand rule for an operation of the same
values: the result finds room, since a word was popped or the stack was empty. -/
theorem twoOperand_of_binary {i : Instr} {f op : Word → Word → Word} (hop : ∀ a b, f a b = op a b)
    (hexec : ∀ s, exec i s = (binary f s).outcome) : TwoOperand i op := by
  obtain rfl : f = op := funext₂ hop
  intro s hd
  rw [hexec]
  have hempty : s.stackDepth ≠ some ([] : List Word).length := depthOk_ne_zero hd
  refine ⟨fun l a b h => ?pair, fun b hs h => ?single, fun hs h => ?empty, fun hs h => ?short⟩
  case pair =>
    have hroom : s.stackDepth ≠ some l.length := depthOk_room_of_lt (k := s.active) hd (by simp [h])
    rw [binary_pair f h, push_setStack hroom, Result.outcome_ok]
  case single =>
    rw [binary_single f hs h, push_setStack hempty, Result.outcome_ok, minusOne_eq_allOnes,
      List.nil_append]
  case empty =>
    rw [binary_empty f hs h, push_ok (by rwa [h]), h, Result.outcome_ok, minusOne_eq_allOnes,
      List.nil_append]
  case short => exact ⟨_, by rw [binary_short f hs h, Result.outcome_ended], rfl⟩

/-! ### The bitwise instructions (R131 to R133) -/

/-- Settles O8: `^` has the two-operand form over the exclusive-or. -/
theorem xorOfTopTwo : Obligations.XorOfTopTwo :=
  ⟨decode_encode .xor, twoOperand_of_binary (f := xor64) (fun _ _ => rfl) fun _ => rfl⟩

/-- Settles O9: `|` has the two-operand form over the inclusive-or. -/
theorem orOfTopTwo : Obligations.OrOfTopTwo :=
  ⟨decode_encode .or, twoOperand_of_binary (f := or64) (fun _ _ => rfl) fun _ => rfl⟩

/-- Settles O10: `&` has the two-operand form over the and. -/
theorem andOfTopTwo : Obligations.AndOfTopTwo :=
  ⟨decode_encode .and, twoOperand_of_binary (f := and64) (fun _ _ => rfl) fun _ => rfl⟩

/-! ### The wrapping instructions: the signed formulas in the readings of the rules (R134 to R136, R138) -/

theorem add64_eq_ofNat (a b : Word) : add64 a b = BitVec.ofNat 64 ((a.toNat + b.toNat) % 2 ^ 64) := by
  apply BitVec.eq_of_toNat_eq
  simp [add64_eq]

theorem sub64_eq_ofNat (a b : Word) : sub64 a b = BitVec.ofNat 64 ((a.toNat + (2 ^ 64 - b.toNat)) % 2 ^ 64) := by
  apply BitVec.eq_of_toNat_eq
  simp [sub64_eq, BitVec.toNat_sub, Nat.add_comm]

/-- A sign extension adds bits above the word and keeps the word's own. -/
theorem setWidth_signExtend {w v : Nat} (x : BitVec w) (h : w ≤ v) : (x.signExtend v).setWidth w = x := by
  apply BitVec.eq_of_getLsbD_eq
  intro i hi
  have hv : i < v := by omega
  simp [BitVec.getElem_signExtend, hi, hv]

/-- The low half of the 128-bit product depends on the low halves of the extended operands alone. -/
theorem mul64_eq_extractLsb' (a b : Word) :
    mul64 a b = (a.signExtend 128 * b.signExtend 128).extractLsb' 0 64 := by
  rw [mul64_eq, ← BitVec.setWidth_eq_extractLsb' (by omega), BitVec.setWidth_mul _ _ (by omega),
    setWidth_signExtend a (by omega), setWidth_signExtend b (by omega)]

/-- Settles O11: the signed sum and the unsigned sum wrap to the same word. -/
theorem addWraps : Obligations.AddWraps :=
  ⟨decode_encode .add, twoOperand_of_binary add64_eq_ofNat fun _ => rfl⟩

/-- Settles O12: the signed difference and the unsigned difference wrap to the same word. -/
theorem subWraps : Obligations.SubWraps :=
  ⟨decode_encode .sub, twoOperand_of_binary sub64_eq_ofNat fun _ => rfl⟩

/-- Settles O13: the wrapped product is the low half of the 128-bit one. -/
theorem mulLowHalf : Obligations.MulLowHalf :=
  ⟨decode_encode .mul, twoOperand_of_binary mul64_eq_extractLsb' fun _ => rfl⟩

/-! ### Division (R137, R139) -/

theorem div64_zero (a : Word) : div64 a 0#64 = 0#64 := by rw [div64_eq, BitVec.sdiv_zero]

/-- `MIN / -1` wraps to `MIN`: its quotient `2^63` is the one that no word has as its signed value. -/
theorem div64_min_neg_one : div64 0x8000000000000000#64 (BitVec.allOnes 64) = 0x8000000000000000#64 := by
  rw [div64_eq]
  exact BitVec.intMin_sdiv_neg_one

/-- Every other quotient is the signed value of a word, so the wrap does not change it. -/
theorem toInt_div64 {a b : Word} (h : ¬(a = 0x8000000000000000#64 ∧ b = BitVec.allOnes 64)) :
    (div64 a b).toInt = a.toInt.tdiv b.toInt := by
  rw [div64_eq]
  exact BitVec.toInt_sdiv_of_ne_or_ne a b (not_and_or.mp h)

/-- Settles O14: `/` has the two-operand form over the wrapped truncated quotient. -/
theorem divTruncates : Obligations.DivTruncates := by
  refine ⟨decode_encode .div, div64, twoOperand_of_binary (fun _ _ => rfl) fun _ => rfl,
    fun a b => ⟨?_, ?_, fun _ => toInt_div64⟩⟩
  · rintro rfl
    exact div64_zero a
  · rintro rfl rfl
    exact div64_min_neg_one

/-! ### The push of all ones (R130) -/

/-- Settles O7: `!` is a push of −1, which finds room or overflows. -/
theorem pushMinusOne : Obligations.PushMinusOne := by
  refine ⟨decode_encode .pushm1, fun s => ⟨fun hroom => ?_, fun hfull => ?_⟩⟩
  · rw [exec, execPushm1, push_ok hroom, Result.outcome_ok, minusOne]
  · refine ⟨raise (.stackOverflow s.pc s.active) s, ?_, raise_status .., raise_stack ..⟩
    rw [exec, execPushm1, push_full hfull, Result.outcome_ended]

end Sys2Proof.Machine

/-! # The stack family: `$`, `~` and `=` in all their forms, and their frames (R150 to R152) -/

namespace Sys2Proof.Machine

open Sys2Proof.Rules

/-! ### The switch of the active stack (R150) -/

theorem exec_sws (s : State) : exec .sws s = .next (s.setActive (flipStack s.active)) := rfl

theorem flipStack_flipStack (k : StackId) : flipStack (flipStack k) = k := by cases k <;> rfl

/-- Two switches restore the state. -/
theorem execSeq_sws_sws {s : State} (hs : s.status = .running) (hio : s.io = none) :
    execSeq [.sws, .sws] s = .next s := by
  rw [execSeq_cons (exec_sws s) (by simpa using hs) (by simpa using hio),
    execSeq_cons (exec_sws _) (by simpa using hs) (by simpa using hio), setActive_active, flipStack_flipStack]
  rfl

/-- Settles O19: `$` writes the other stack number into `i`, and no other instruction writes `i`. -/
theorem switchInvertsIndex : Obligations.SwitchInvertsIndex := by
  refine ⟨decode_encode .sws, fun s => ⟨fun hi => ?_, fun hi => ?_, execSeq_sws_sws, fun i t => exec_active⟩⟩
  · rw [exec_sws, hi]
    rfl
  · rw [exec_sws, hi]
    rfl

/-- Settles O30: the next state is a write of `i`. -/
theorem frameSwitch : Obligations.FrameSwitch := by
  intro s t h
  have hcode := (exec_programOf h).1
  obtain rfl := execSws_eq h
  exact ⟨rfl, rfl, rfl, rfl, rfl, hcode, rfl, rfl, rfl, rfl⟩

/-! ### The duplication of the top (R152) -/

/-- Settles O21: a pop of the top, or of −1 from an empty lenient stack, leaves room for the first push; the second
push finds room or overflows. -/
theorem duplicateTop : Obligations.DuplicateTop := by
  refine ⟨decode_encode .dup, fun s hd => ⟨fun l x h hroom => execDup_top h hd hroom, fun hs h hroom => ?empty,
    fun l x h hfull => ?full, fun hs h hfull => ?emptyFull, fun hs h => ?short⟩⟩
  case empty =>
    rw [exec, execDup, duplicate_empty hs h (depthOk_ne_zero hd), push_setStack hroom, Result.outcome_ok]
    rfl
  case full =>
    have hpush := push_full (s := s) (k := s.active) (by simpa [h] using hfull) x
    exact ⟨raise (.stackOverflow s.pc s.active) s,
      by rw [exec, execDup, duplicate_top h (depthOk_room_below hd h), hpush, Result.outcome_ended],
      raise_status .., by rw [raise_stack, h]⟩
  case emptyFull =>
    have hpush := push_full (s := s.setStack s.active [minusOne]) (k := s.active) (by simpa using hfull) minusOne
    exact ⟨_, by rw [exec, execDup, duplicate_empty hs h (depthOk_ne_zero hd), hpush, Result.outcome_ended],
      by simp⟩
  case short => exact ⟨_, by rw [exec, execDup, duplicate_short hs h, Result.outcome_ended], raise_status ..⟩

/-! ### The exchange of the two tops (R151) -/

/-- A pop of `S[k]` gives `x` and leaves `l`: the top and the words below it, or in lenient mode −1 and the empty
stack it found (R55). -/
def State.Pops (s : State) (k : StackId) (l : List Word) (x : Word) : Prop :=
  s.stack k = l ++ [x] ∨ (s.strict = false ∧ s.stack k = [] ∧ l = [] ∧ x = BitVec.allOnes 64)

theorem State.Pops.pop_eq {s : State} {k : StackId} {l : List Word} {x : Word} (h : s.Pops k l x) :
    pop k s = .ok (x, s.setStack k l) := by
  obtain h | ⟨hs, h, rfl, rfl⟩ := h
  · exact pop_concat h
  · rw [pop_nil_lenient h hs, ← h, setStack_stack_self, minusOne_eq_allOnes]

/-- What a pop leaves of a stack within its capacity has room for a word. -/
theorem State.Pops.room {s : State} {k : StackId} {l : List Word} {x : Word} (h : s.Pops k l x) (hd : s.DepthOk) :
    s.stackDepth ≠ some l.length := by
  obtain h | ⟨-, -, rfl, -⟩ := h
  · exact depthOk_room_below hd h
  · exact depthOk_ne_zero hd

/-- A write of the other stack is not seen by a pop. -/
theorem State.Pops.setStack_other {s : State} {j k : StackId} {l : List Word} {x : Word} (h : s.Pops k l x)
    (hne : k ≠ j) (m : List Word) : (s.setStack j m).Pops k l x := by
  simpa [State.Pops, setStack_stack_other s hne] using h

/-- `~` on stacks within their capacity that both answer a pop exchanges what they answer: `execXch_tops`
with the empty lenient stacks. -/
theorem execXch_of_pops {s : State} {l m : List Word} {x y : Word} (hd : s.DepthOk) (h0 : s.Pops .s0 l x)
    (h1 : s.Pops .s1 m y) : exec .xch s = .next { s with stack0 := l ++ [y], stack1 := m ++ [x] } := by
  have hpush := exchange_pushes (s := (s.setStack .s0 l).setStack .s1 m) (x := x) (y := y)
    (by simpa using h0.room hd) (by simpa using h1.room hd)
  rw [exec, execXch, exchange, h0.pop_eq, Result.bind_ok]
  dsimp only
  rw [(h1.setStack_other (by decide) l).pop_eq, Result.bind_ok]
  dsimp only
  rw [hpush]
  rfl

/-- A strict `~` pops stack 0 first (D8). -/
theorem execXch_short_s0 {s : State} (hs : s.strict = true) (h0 : s.stack0 = []) :
    exec .xch s = .next (raise (.stackUnderflow s.pc .s0) s) := by
  rw [exec, execXch, exchange, pop_nil_strict (k := .s0) h0 hs, Result.bind_ended, Result.outcome_ended]

/-- A strict `~` that finds stack 1 empty has taken the top of stack 0. -/
theorem execXch_short_s1 {s : State} {l : List Word} {x : Word} (hs : s.strict = true) (h0 : s.stack0 = l ++ [x])
    (h1 : s.stack1 = []) : exec .xch s = .next (raise (.stackUnderflow s.pc .s1) (s.setStack .s0 l)) := by
  have hpop := pop_nil_strict (s := s.setStack .s0 l) (k := .s1) h1 hs
  rw [exec, execXch, exchange, pop_concat (k := .s0) h0, Result.bind_ok]
  dsimp only
  rw [hpop, Result.bind_ended, Result.outcome_ended, setStack_pc]

/-- Settles O20: in the first four forms both pops answer, and in strict mode the first pop that finds its stack
empty raises. -/
theorem exchangeTops : Obligations.ExchangeTops := by
  refine ⟨decode_encode .xch, fun s hd => ⟨fun l m x y h0 h1 => execXch_tops hd h0 h1,
    fun m y hs h0 h1 => execXch_of_pops hd (.inr ⟨hs, h0, rfl, rfl⟩) (.inl h1),
    fun l x hs h0 h1 => execXch_of_pops hd (.inl h0) (.inr ⟨hs, h1, rfl, rfl⟩),
    fun hs h0 h1 => execXch_of_pops hd (.inr ⟨hs, h0, rfl, rfl⟩) (.inr ⟨hs, h1, rfl, rfl⟩),
    fun hs h0 => ⟨_, execXch_short_s0 hs h0, raise_status ..⟩, fun hs h0 h1 => ?_⟩⟩
  obtain ⟨l, x, h⟩ := (List.eq_nil_or_concat s.stack0).resolve_left h0
  exact ⟨_, execXch_short_s1 hs (by rw [h, List.concat_eq_append]) h1, raise_status ..⟩

/-! ### The frame of the exchange: below the tops -/

/-- All but the top of each stack of `s` is still there in `u`. -/
def KeptBelowTops (s u : State) : Prop := ∀ k, (s.stack k).dropLast <+: u.stack k

theorem keptBelowTops_self (s : State) : KeptBelowTops s s := fun _ => List.dropLast_prefix _

theorem KeptBelowTops.raise {s u : State} (h : KeptBelowTops s u) (f : VmFault) : KeptBelowTops s (raise f u) :=
  fun k => by simpa using h k

theorem KeptBelowTops.setStack {s u : State} (h : KeptBelowTops s u) {k : StackId} {l : List Word}
    (hl : (s.stack k).dropLast <+: l) : KeptBelowTops s (u.setStack k l) := fun j => by
  by_cases hj : j = k
  · subst hj
    rwa [setStack_stack_same]
  · rw [setStack_stack_other u hj]
    exact h j

/-- A pop of a stack that is still whole takes its top, and leaves the other stack alone (R55). -/
theorem KeptBelowTops.pop {s u : State} {k : StackId} (h : KeptBelowTops s u) (hk : u.stack k = s.stack k) :
    (pop k u).Sat (KeptBelowTops s) fun a => KeptBelowTops s a.2 ∧ ∀ j, j ≠ k → a.2.stack j = u.stack j := by
  rcases pop_cases k u with ⟨l, v, hl, hp⟩ | ⟨-, -, hp⟩ | ⟨-, -, hp⟩ <;> rw [hp]
  · exact ⟨h.setStack (by simp [← hk, hl]), fun j hj => setStack_stack_other u hj l⟩
  · exact ⟨h, fun _ _ => rfl⟩
  · exact h.raise _

/-- A push keeps what is there (R56). -/
theorem KeptBelowTops.push {s u : State} (h : KeptBelowTops s u) (k : StackId) (v : Word) :
    (push k v u).Sat (KeptBelowTops s) (KeptBelowTops s) := by
  rcases push_cases k v u with ⟨-, hp⟩ | ⟨-, hp⟩ <;> rw [hp]
  · exact h.setStack ((h k).trans (List.prefix_append _ _))
  · exact h.raise _

/-- `~` pops each stack once, while it is still whole. -/
theorem exchange_keptBelowTops (s : State) : (exchange s).Sat (KeptBelowTops s) (KeptBelowTops s) :=
  Result.sat_bind ((keptBelowTops_self s).pop rfl) fun _ ⟨h1, hwhole⟩ =>
    Result.sat_bind (h1.pop (hwhole .s1 (by decide))) fun _ ⟨h2, _⟩ =>
      Result.sat_bind (h2.push _ _) fun _ h3 => h3.push _ _

theorem execXch_keptBelowTops {s t : State} (h : exec .xch s = .next t) : KeptBelowTops s t :=
  (Result.sat_outcome (exchange_keptBelowTops s) h).elim id id

/-! ### The frame of the exchange: independence of `i` -/

/-- The result with `i` written in the state it holds; `g` writes it in the value the result goes on with. -/
def Result.setActive {α : Type} (g : α → α) (k : StackId) : Result α → Result α
  | .ok a => .ok (g a)
  | .ended s => .ended (s.setActive k)

theorem Result.setActive_bind {α β : Type} {g : α → α} {g' : β → β} {k : StackId} (r : Result α) {f : α → Result β}
    (hf : ∀ a, f (g a) = (f a).setActive g' k) : (r.setActive g k).bind f = (r.bind f).setActive g' k := by
  cases r with
  | ok a => exact hf a
  | ended s => rfl

theorem Result.setActive_outcome {r : Result State} {t : State} (k : StackId) (h : r.outcome = .next t) :
    (r.setActive (State.setActive · k) k).outcome = .next (t.setActive k) := by
  cases r <;> injection h with h <;> subst h <;> rfl

theorem setStack_setActive (s : State) (j k : StackId) (l : List Word) :
    (s.setActive k).setStack j l = (s.setStack j l).setActive k := by cases j <;> rfl

/-- A pop of a named stack does not read `i`. -/
theorem pop_setActive (j k : StackId) (s : State) :
    pop j (s.setActive k) = (pop j s).setActive (Prod.map id (State.setActive · k)) k := by
  rcases pop_cases j s with ⟨l, v, hl, hp⟩ | ⟨hl, hs, hp⟩ | ⟨hl, hs, hp⟩ <;> rw [hp]
  · rw [pop_concat (by simpa using hl), setStack_setActive]
    rfl
  · rw [pop_nil_lenient (by simpa using hl) (by simpa using hs)]
    rfl
  · rw [pop_nil_strict (by simpa using hl) (by simpa using hs)]
    rfl

/-- A push on a named stack does not read `i`. -/
theorem push_setActive (j k : StackId) (v : Word) (s : State) :
    push j v (s.setActive k) = (push j v s).setActive (State.setActive · k) k := by
  rcases push_cases j v s with ⟨hd, hp⟩ | ⟨hd, hp⟩ <;> rw [hp]
  · rw [push_ok (by simpa using hd), setStack_setActive, setActive_stack]
    rfl
  · rw [push_full (by simpa using hd)]
    rfl

theorem exchange_setActive (k : StackId) (s : State) :
    exchange (s.setActive k) = (exchange s).setActive (State.setActive · k) k := by
  rw [exchange, pop_setActive]
  refine Result.setActive_bind _ fun x => ?_
  dsimp only [Prod.map]
  rw [pop_setActive]
  refine Result.setActive_bind _ fun y => ?_
  dsimp only [Prod.map]
  rw [push_setActive]
  exact Result.setActive_bind _ fun u => push_setActive .s0 k _ u

/-- `~` with another value of `i` answers the same state with that value of `i`. -/
theorem execXch_setActive {s t : State} (k : StackId) (h : exec .xch s = .next t) :
    exec .xch (s.setActive k) = .next (t.setActive k) := by
  rw [exec, execXch, exchange_setActive]
  exact Result.setActive_outcome k h

/-- What an instruction that only pops and pushes leaves alone beside the stacks: the ports, and the status and the
diagnostic sink but for one fault. -/
theorem exec_stackInstr_frame {i : Instr} {s t : State} (hi : i ∈ stackInstrs) (h : exec i s = .next t) :
    SamePorts s t ∧ KeptOrRaised s t := by
  obtain ⟨l, m, rfl | ⟨f, rfl⟩⟩ := exec_stackInstr_cases hi h
  · exact ⟨⟨rfl, rfl, rfl, rfl⟩, .inl ⟨rfl, rfl⟩⟩
  · exact ⟨⟨rfl, rfl, rfl, rfl⟩, .inr ⟨f, rfl, rfl⟩⟩

/-- Settles O31: each stack is popped once and then pushed to, and neither a pop nor a push of a named stack reads
`i`. -/
theorem frameExchange : Obligations.FrameExchange := by
  intro s t h
  have hbelow := execXch_keptBelowTops h
  obtain ⟨hports, hstatus⟩ := exec_stackInstr_frame (by decide) h
  exact ⟨hbelow .s0, hbelow .s1, exec_active (by decide) h, exec_pc (by decide) h, (exec_programOf h).1, hports,
    hstatus, fun k => ⟨_, execXch_setActive k h, rfl, rfl, rfl⟩⟩

end Sys2Proof.Machine

/-! # The control family: `@` in all its forms, the step of a jump, and the frame (R160 to R162) -/

namespace Sys2Proof.Machine

open Sys2Proof.Rules

/-! ### What `@` answers (R160) -/

theorem jumpOrHalt_minusOne (s : State) : jumpOrHalt minusOne s = halt s := rfl

theorem jumpOrHalt_of_ne {a : Word} (ha : a ≠ minusOne) (s : State) : jumpOrHalt a s = s.setPc (s.pc + a) := by
  rw [jumpOrHalt, if_neg (by rwa [isHaltOffset_iff]), branchBase_eq]

theorem execJmp_top {s : State} {l : List Word} {a : Word} (h : s.stack s.active = l ++ [a]) :
    exec .jmp s = .next (jumpOrHalt a (s.setStack s.active l)) := by
  rw [exec, execJmp, consume, pop_concat h, Result.bind_ok, Result.outcome_ok]

theorem execJmp_offset {s : State} {l : List Word} {a : Word} (h : s.stack s.active = l ++ [a]) (ha : a ≠ minusOne) :
    exec .jmp s = .next ((s.setStack s.active l).setPc (s.pc + a)) := by
  rw [execJmp_top h, jumpOrHalt_of_ne ha, setStack_pc]

theorem execJmp_empty {s : State} (hs : s.strict = false) (h : s.stack s.active = []) :
    exec .jmp s = .next (halt s) := by
  rw [exec, execJmp, consume, pop_nil_lenient h hs, Result.bind_ok, Result.outcome_ok, jumpOrHalt_minusOne]

theorem execJmp_short {s : State} (hs : s.strict = true) (h : s.stack s.active = []) :
    exec .jmp s = .next (raise (.stackUnderflow s.pc s.active) s) := by
  rw [exec, execJmp, consume, pop_nil_strict h hs, Result.bind_ended, Result.outcome_ended]

/-- Settles O22: `@` pops its offset, or −1 from an empty lenient stack, and the offset decides. -/
theorem jumpOrHaltByOffset : Obligations.JumpOrHaltByOffset := by
  refine ⟨decode_encode .jmp, fun s => ⟨fun l a hl ha => ?_, fun l hl => ?_, execJmp_empty, fun hs hnil => ?_⟩⟩
  · have hpc : BitVec.ofNat 64 ((s.pc.toNat + a.toNat) % 2 ^ 64) = s.pc + a := BitVec.eq_of_toNat_eq (by simp)
    rw [execJmp_offset hl ha, hpc]
    rfl
  · rw [execJmp_top hl, ← minusOne_eq_allOnes, jumpOrHalt_minusOne]
    rfl
  · exact ⟨_, execJmp_short hs hnil, raise_status ..⟩

/-! ### The step of a jump (R161, R162) -/

/-- An instruction that completes is followed by the increment and the range check (R27, R29). -/
theorem cycleEnd_of_running {u : State} (hs : u.status = .running) (hio : u.io = none) (p : Word) :
    cycleEnd p u = advance p u := by
  rw [cycleEnd, hs, hio]

/-- Everything the step of a non-halting `@` can do: the offset is popped, and the range check is made on
`pc + a + 1` (R29, R161). -/
theorem step_jump_cases {s : State} {l : List Word} {a : Word} (hs : s.status = .running) (hio : s.io = none)
    (hf : fetch s = .op .jmp) (hl : s.stack s.active = l ++ [a]) (ha : a ≠ minusOne) :
    ∃ t, step s = .next t ∧ t.stack s.active = l ∧
      ((s.pc + a + 1#64 < s.codeLen ∧ t.status = .running ∧ t.pc = s.pc + a + 1#64) ∨
       (s.codeLen ≤ s.pc + a + 1#64 ∧ s.strict = false ∧ t.status = .running ∧ t.pc = 0#64) ∨
       (s.codeLen ≤ s.pc + a + 1#64 ∧ s.strict = true ∧
         t.status = .faulted (.outOfCode s.pc (s.pc + a + 1#64)))) := by
  obtain ⟨u, hu, hstack, hpc, hus, huio⟩ : ∃ u, exec .jmp (traceOut .jmp s) = .next u ∧ u.stack s.active = l ∧
      u.pc = s.pc + a ∧ u.status = .running ∧ u.io = none :=
    ⟨_, execJmp_offset (by simpa using hl) ha, by simp, by simp, by simpa using hs, by simpa using hio⟩
  have hprog := programOf_of_traced_exec hu
  refine ⟨_, step_of_exec hs hio hf hu, ?_⟩
  rw [cycleEnd_of_running hus huio, ← hpc, ← hprog.codeLen_eq, ← hprog.strict_eq]
  rcases advance_cases s.pc u with ⟨hn, ht⟩ | ⟨hn, hmode, ht⟩ | ⟨hn, hmode, ht⟩ <;> rw [ht]
  · exact ⟨by simpa using hstack, .inl ⟨hn, hus, rfl⟩⟩
  · exact ⟨by simpa using hstack, .inr (.inl ⟨hn, hmode, hus, rfl⟩)⟩
  · exact ⟨by simpa using hstack, .inr (.inr ⟨hn, hmode, rfl⟩)⟩

/-- The index that the range check of a jump sees, `n` of R161. -/
theorem toNat_jumpIndex (pc a : Word) : (pc + a + 1#64).toNat = (pc.toNat + a.toNat + 1) % 2 ^ 64 := by
  simp [BitVec.toNat_add]

/-- Settles O23: the range check of the cycle is on `pc + a + 1`. -/
theorem branchAddress : Obligations.BranchAddress := by
  intro s l a hs hio hf hl ha
  obtain ⟨t, hstep, hstack, hcases⟩ := step_jump_cases hs hio hf hl ha
  refine ⟨t, hstep, hstack, ?_⟩
  dsimp only
  rw [← toNat_jumpIndex, BitVec.ofNat_toNat, BitVec.setWidth_eq]
  rw [BitVec.lt_def, BitVec.le_def] at hcases
  rcases hcases with ⟨hn, hts, hpc⟩ | ⟨hn, hmode, hts, hpc⟩ | ⟨hn, hmode, hts⟩
  · exact ⟨fun _ => ⟨hts, by rw [hpc]⟩, fun h => absurd hn (Nat.not_lt.mpr h), fun h => absurd hn (Nat.not_lt.mpr h)⟩
  · exact ⟨fun h => absurd h (Nat.not_lt.mpr hn), fun _ _ => ⟨hts, hpc⟩, fun _ h => by simp [hmode] at h⟩
  · exact ⟨fun h => absurd h (Nat.not_lt.mpr hn), fun _ h => by simp [hmode] at h, fun _ _ => hts⟩

/-- A signed target inside the code is the index itself: no wrap is left (R161). -/
theorem jumpIndex_of_target_inside {pc codeLen a : Word}
    (h : 0 ≤ (pc.toNat : Int) + 1 + a.toInt ∧ (pc.toNat : Int) + 1 + a.toInt < codeLen.toNat) :
    (((pc.toNat + a.toNat + 1) % 2 ^ 64 : Nat) : Int) = pc.toNat + 1 + a.toInt := by
  have hL := codeLen.isLt
  have hsigned := BitVec.toInt_eq_toNat_cond a
  split at hsigned <;> omega

/-- In code of at most `2^63` opcodes a signed target outside the code is an index past it: a target below 0 wraps to
`2^63` or more, and one at `L` or more stays below `2^64` (R161). -/
theorem jumpIndex_of_target_outside {pc codeLen a : Word} (hpc : pc < codeLen) (hL : codeLen.toNat ≤ 2 ^ 63)
    (h : ¬(0 ≤ (pc.toNat : Int) + 1 + a.toInt ∧ (pc.toNat : Int) + 1 + a.toInt < codeLen.toNat)) :
    codeLen.toNat ≤ (pc.toNat + a.toNat + 1) % 2 ^ 64 := by
  have hpc : pc.toNat < codeLen.toNat := hpc
  have ha := a.isLt
  have hsigned := BitVec.toInt_eq_toNat_cond a
  split at hsigned <;> omega

/-- Settles O24: O23's index, read as a signed target. -/
theorem signedBranchTarget : Obligations.SignedBranchTarget := by
  intro s l a hs hio hf hl ha
  obtain ⟨t, hstep, -, hinside, hlenient, hstrict⟩ := branchAddress s l a hs hio hf hl ha
  refine ⟨fun htarget => ?_, fun hL htarget => ?_⟩
  · have hn := jumpIndex_of_target_inside htarget
    obtain ⟨hts, hpc⟩ := hinside (by omega)
    exact ⟨t, hstep, hts, by rw [hpc, hn]⟩
  · have hn := jumpIndex_of_target_outside (fetch_op hf).1 hL htarget
    refine ⟨t, hstep, ?_⟩
    cases hmode : s.strict with
    | false => exact .inl ⟨rfl, hlenient hn hmode⟩
    | true => exact .inr ⟨rfl, _, hstrict hn hmode⟩

/-! ### The frame of `@` (R160, R22) -/

/-- `@` takes at most the top of the active stack, and nothing of the other one. -/
theorem execJmp_stack {s t : State} (h : exec .jmp s = .next t) :
    (∀ k, k ≠ s.active → t.stack k = s.stack k) ∧ t.stack s.active = (s.stack s.active).dropLast := by
  rcases execJmp_cases h with ⟨l, a, hl, -, rfl⟩ | ⟨l, hl, rfl⟩ | ⟨hnil, -, rfl⟩ | ⟨hnil, -, rfl⟩
  · exact ⟨fun k hk => by simp [setStack_stack_other s hk], by simp [hl]⟩
  · exact ⟨fun k hk => by simp [setStack_stack_other s hk], by simp [hl]⟩
  · exact ⟨fun k _ => by simp, by simp [hnil]⟩
  · exact ⟨fun k _ => by simp, by simp [hnil]⟩

theorem execJmp_samePorts {s t : State} (h : exec .jmp s = .next t) : SamePorts s t := by
  rcases execJmp_cases h with ⟨l, a, -, -, rfl⟩ | ⟨l, -, rfl⟩ | ⟨-, -, rfl⟩ | ⟨-, -, rfl⟩ <;> simp [SamePorts]

/-- A `@` that jumps keeps the status; one that halts or faults keeps `pc` (R28, R160). -/
theorem execJmp_status {s t : State} (h : exec .jmp s = .next t) :
    (KeptOrRaised s t ∨ t.status = .halted ∧ t.diag = s.diag) ∧ (t.pc ≠ s.pc → t.status = s.status) := by
  rcases execJmp_cases h with ⟨l, a, -, -, rfl⟩ | ⟨l, -, rfl⟩ | ⟨-, -, rfl⟩ | ⟨-, -, rfl⟩
  · exact ⟨.inl (.inl (by simp)), fun _ => by simp⟩
  · exact ⟨.inr (by simp), fun hpc => absurd (by simp) hpc⟩
  · exact ⟨.inr (by simp), fun hpc => absurd rfl hpc⟩
  · exact ⟨.inl (.inr ⟨_, rfl, rfl⟩), fun hpc => absurd rfl hpc⟩

/-- Settles O32: a pop of the active stack, and then a write of `pc` or of the status. -/
theorem frameJump : Obligations.FrameJump := by
  intro s t h
  obtain ⟨hothers, htop⟩ := execJmp_stack h
  obtain ⟨hstatus, hpc⟩ := execJmp_status h
  exact ⟨hothers, htop, exec_active (by decide) h, (exec_programOf h).1, execJmp_samePorts h, hstatus, hpc⟩

end Sys2Proof.Machine

/-! # The I/O family: `?` and `.` in all their forms, the waits for the host, and the frames (R170 to R174, R206) -/

namespace Sys2Proof.Machine

open Sys2Proof.Rules

/-! ### What `?` answers (R171, R173) -/

theorem answerWord_byte (b : Byte) : answerWord (.byte b) = BitVec.ofNat 64 b.toNat := (BitVec.ofNat_toNat 64 b).symm

theorem execInp_wait {s : State} (h : s.input = []) : exec .inp s = .next (s.await .input) := by
  rw [exec, execInp, h]

theorem execInp_room {s : State} {r : InAnswer} {rest : List InAnswer} (h : s.input = r :: rest)
    (hroom : s.stackDepth ≠ some (s.stack s.active).length) :
    exec .inp s = .next ((s.takeInput rest).setStack s.active (s.stack s.active ++ [answerWord r])) := by
  simp only [exec, execInp, h]
  rw [push_ok (by simpa using hroom), Result.outcome_ok, takeInput_stack]

theorem execInp_full {s : State} {r : InAnswer} {rest : List InAnswer} (h : s.input = r :: rest)
    (hfull : s.stackDepth = some (s.stack s.active).length) :
    exec .inp s = .next (raise (.stackOverflow s.pc s.active) (s.takeInput rest)) := by
  simp only [exec, execInp, h]
  rw [push_full (by simpa using hfull), Result.outcome_ended, takeInput_pc]

/-- Settles O25: the first answer is taken, and the push of its word finds room or overflows. -/
theorem inputPushesAnswer : Obligations.InputPushesAnswer := by
  refine ⟨decode_encode .inp, fun s r rest hin => ⟨fun hroom => ?_, fun hfull => ?_⟩⟩
  · rw [execInp_room hin hroom]
    cases r with
    | byte b => rw [answerWord_byte]; rfl
    | eof | err => rfl
  · exact ⟨_, execInp_full hin hfull, raise_status .., by rw [raise_input, takeInput_input]⟩

/-! ### What `.` answers (R172, R174) -/

theorem lowByte_eq_ofNat (a : Word) : lowByte a = BitVec.ofNat 8 (a.toNat % 256) := by
  rw [lowByte_eq]
  exact BitVec.eq_of_toNat_eq (by simp)

theorem lowByte_minusOne : lowByte minusOne = 0xFF#8 := by decide

theorem outWrite_accepted {s : State} (h : s.accepts ≠ some 0) (b : Byte) : outWrite b s = s.acceptOutput b :=
  ((outWrite_cases b s).resolve_right fun hwait => h hwait.1).2

theorem outWrite_offered {s : State} (h : s.accepts = some 0) (b : Byte) : outWrite b s = s.await (.output b) :=
  ((outWrite_cases b s).resolve_left fun haccept => haccept.1 h).2

theorem execOut_top {s : State} {l : List Word} {a : Word} (h : s.stack s.active = l ++ [a]) :
    exec .out s = .next (outWrite (lowByte a) (s.setStack s.active l)) := by
  rw [exec, execOut, consume, pop_concat h, Result.bind_ok, Result.outcome_ok]

theorem execOut_empty {s : State} (hs : s.strict = false) (h : s.stack s.active = []) :
    exec .out s = .next (outWrite 0xFF#8 s) := by
  rw [exec, execOut, consume, pop_nil_lenient h hs, Result.bind_ok, Result.outcome_ok, lowByte_minusOne]

theorem execOut_short {s : State} (hs : s.strict = true) (h : s.stack s.active = []) :
    exec .out s = .next (raise (.stackUnderflow s.pc s.active) s) := by
  rw [exec, execOut, consume, pop_nil_strict h hs, Result.bind_ended, Result.outcome_ended]

/-- Settles O27: the low byte of what the pop answers is accepted; a strict pop of an empty stack raises before
anything is written. -/
theorem outputWritesLowByte : Obligations.OutputWritesLowByte := by
  refine ⟨decode_encode .out, fun s => ⟨fun l a haccepts h => ?_, fun haccepts hs h => ?_, fun hs h => ?_⟩⟩
  · rw [execOut_top h, outWrite_accepted (by simpa using haccepts), lowByte_eq_ofNat, State.acceptOutput,
      setStack_output, setStack_accepts]
  · rw [execOut_empty hs h, outWrite_accepted haccepts, State.acceptOutput]
  · exact ⟨_, execOut_short hs h, raise_status .., raise_output ..⟩

/-! ### The waits for the host (R171, R172, R206) -/

/-- Asking again for what is outstanding changes nothing. -/
theorem await_of_io {s : State} {r : IoRequest} (h : s.io = some r) : s.await r = s := by
  rw [State.await, ← h]

/-- A wait ends the step before the increment (R206). -/
theorem cycleEnd_of_waiting {u : State} {r : IoRequest} (h : u.io = some r) (p : Word) : cycleEnd p u = u := by
  rcases cycleEnd_cases p u with ⟨-, hio, -⟩ | ⟨-, hc⟩
  · simp [h] at hio
  · exact hc

/-- A machine that waits for an answer takes up its `?` (R206). -/
theorem step_of_input {s : State} (hs : s.status = .running) (hio : s.io = some .input) :
    step s = finish s.pc (exec .inp s) := by
  simp only [step, hs, hio]

/-- A machine that waits for its byte to be accepted takes up the output transaction (R206). -/
theorem step_of_output {s : State} {b : Byte} (hs : s.status = .running) (hio : s.io = some (.output b)) :
    step s = .next (cycleEnd s.pc (outWrite b s)) := by
  simp only [step, hs, hio]

/-- Taking the one answer of the host leaves the machine that asked for it, its wait over. -/
theorem takeInput_hostAnswer {s : State} (h : s.input = []) (r : InAnswer) :
    (s.hostAnswer r).takeInput [] = { s with io := none } := by
  simp [State.takeInput, State.hostAnswer, h]

theorem hostAnswer_input_of_nil {s : State} (h : s.input = []) (r : InAnswer) : (s.hostAnswer r).input = [r] := by
  rw [hostAnswer_input, h, List.nil_append]

/-- Settles O26: a `?` that finds no answer asks again, and one that finds the host's answer completes or overflows. -/
theorem inputWaitsForHost : Obligations.InputWaitsForHost := by
  refine ⟨fun s hin => execInp_wait hin, fun s hs hio hin => ?stays, fun s r hs hio hin hroom => ?resumes,
    fun s r hs hio hin hfull => ?overflows⟩
  case stays =>
    rw [step_of_input hs hio, execInp_wait hin, await_of_io hio, finish_next, cycleEnd_of_waiting hio]
  case resumes =>
    have hstep := step_of_input (s := s.hostAnswer r) hs hio
    rw [hstep, execInp_room (hostAnswer_input_of_nil hin r) (by simpa using hroom), finish_next,
      takeInput_hostAnswer hin, cycleEnd_of_running (by simpa using hs) (by simp), hostAnswer_stack]
    rfl
  case overflows =>
    have hstep := step_of_input (s := s.hostAnswer r) hs hio
    rw [hstep, execInp_full (hostAnswer_input_of_nil hin r) (by simpa using hfull), finish_next,
      takeInput_hostAnswer hin, cycleEnd_of_stopped (by simp)]
    rfl

/-- Settles O28: a byte that the host does not accept is offered again, and once accepted it ends the cycle. -/
theorem outputWaitsForHost : Obligations.OutputWaitsForHost := by
  refine ⟨fun s l a haccepts h => ?offers, fun s haccepts hs h => ?offersFF, fun s b hs hio haccepts => ?stays,
    fun s b n hs hio haccepts => ?resumes⟩
  case offers =>
    rw [execOut_top h, outWrite_offered (by simpa using haccepts), lowByte_eq]
    rfl
  case offersFF =>
    rw [execOut_empty hs h, outWrite_offered haccepts]
    rfl
  case stays =>
    rw [step_of_output hs hio, outWrite_offered haccepts, await_of_io hio, cycleEnd_of_waiting hio]
  case resumes =>
    have hstep := step_of_output (s := s.hostAccept (n + 1)) hs hio
    have hready : (s.hostAccept (n + 1)).accepts = some (n + 1) := by simp [haccepts]
    rw [hstep, outWrite_accepted (by simp), cycleEnd_of_running (by simpa using hs) (by simp), State.acceptOutput,
      hready]
    rfl

/-! ### The frame of `?` (R173, R22) -/

/-- `?` leaves the other stack alone, and at most pushes one word on the active one. -/
theorem execInp_stack {s t : State} (h : exec .inp s = .next t) :
    (∀ k, k ≠ s.active → t.stack k = s.stack k) ∧ ∃ l, l.length ≤ 1 ∧ t.stack s.active = s.stack s.active ++ l := by
  rcases execInp_cases h with ⟨-, rfl⟩ | ⟨r, rest, -, -, rfl⟩ | ⟨r, rest, -, -, rfl⟩
  · exact ⟨fun k _ => by simp, [], by simp⟩
  · exact ⟨fun k hk => by simp [setStack_stack_other _ hk], [answerWord r], by simp⟩
  · exact ⟨fun k _ => by simp, [], by simp⟩

/-- `?` takes the first answer, where there is one, and does not touch the output port. -/
theorem execInp_ports {s t : State} (h : exec .inp s = .next t) :
    t.input = s.input.drop 1 ∧ t.accepts = s.accepts ∧ t.output = s.output := by
  rcases execInp_cases h with ⟨hin, rfl⟩ | ⟨r, rest, hin, -, rfl⟩ | ⟨r, rest, hin, -, rfl⟩ <;> simp [hin]

theorem execInp_keptOrRaised {s t : State} (h : exec .inp s = .next t) : KeptOrRaised s t := by
  rcases execInp_cases h with ⟨-, rfl⟩ | ⟨r, rest, -, -, rfl⟩ | ⟨r, rest, -, -, rfl⟩
  · exact .inl ⟨rfl, rfl⟩
  · exact .inl (by simp)
  · exact .inr ⟨_, rfl, rfl⟩

/-- Settles O33: at most one answer is taken and at most one word pushed, or one fault raised. -/
theorem frameInput : Obligations.FrameInput := by
  intro s t h
  obtain ⟨hothers, l, hlen, htop⟩ := execInp_stack h
  obtain ⟨hin, haccepts, hout⟩ := execInp_ports h
  exact ⟨hothers, htop ▸ List.prefix_append _ _, by rw [htop, List.length_append]; omega, hin,
    exec_active (by decide) h, exec_pc (by decide) h, (exec_programOf h).1, haccepts, hout, execInp_keptOrRaised h⟩

/-! ### The frame of `.` (R174, R22) -/

@[simp] theorem outWrite_stack (b : Byte) (s : State) (k : StackId) : (outWrite b s).stack k = s.stack k := by
  rcases outWrite_cases b s with ⟨-, h⟩ | ⟨-, h⟩ <;> simp [h]

@[simp] theorem outWrite_input (b : Byte) (s : State) : (outWrite b s).input = s.input := by
  rcases outWrite_cases b s with ⟨-, h⟩ | ⟨-, h⟩ <;> simp [h]

@[simp] theorem outWrite_diag (b : Byte) (s : State) : (outWrite b s).diag = s.diag := by
  rcases outWrite_cases b s with ⟨-, h⟩ | ⟨-, h⟩ <;> simp [h]

/-- `.` takes at most the top of the active stack, and nothing of the other one. -/
theorem execOut_stack {s t : State} (h : exec .out s = .next t) :
    (∀ k, k ≠ s.active → t.stack k = s.stack k) ∧ t.stack s.active = (s.stack s.active).dropLast := by
  rcases execOut_cases h with ⟨l, a, hl, rfl⟩ | ⟨hnil, -, rfl⟩ | ⟨hnil, -, rfl⟩
  · exact ⟨fun k hk => by simp [setStack_stack_other s hk], by simp [hl]⟩
  · exact ⟨fun k _ => by simp, by simp [hnil]⟩
  · exact ⟨fun k _ => by simp, by simp [hnil]⟩

theorem execOut_input {s t : State} (h : exec .out s = .next t) : t.input = s.input := by
  rcases execOut_cases h with ⟨l, a, -, rfl⟩ | ⟨-, -, rfl⟩ | ⟨-, -, rfl⟩ <;> simp

theorem execOut_keptOrRaised {s t : State} (h : exec .out s = .next t) : KeptOrRaised s t := by
  rcases execOut_cases h with ⟨l, a, -, rfl⟩ | ⟨-, -, rfl⟩ | ⟨-, -, rfl⟩
  · exact .inl (by simp)
  · exact .inl (by simp)
  · exact .inr ⟨_, rfl, rfl⟩

/-- Settles O34: a pop of the active stack, and then a write of the output port or a fault. -/
theorem frameOutput : Obligations.FrameOutput := by
  intro s t h
  obtain ⟨hothers, htop⟩ := execOut_stack h
  obtain ⟨hgrows, -, -, hbyte, -⟩ := exec_streamsGrow h
  exact ⟨hothers, htop, hgrows, hbyte, execOut_input h, exec_active (by decide) h,
    exec_pc (by decide) h, (exec_programOf h).1, execOut_keptOrRaised h⟩

/-! ### The ports belong to `?` and `.` (R170) -/

/-- Every instruction but `?` and `.` leaves the ports alone. -/
theorem exec_samePorts {i : Instr} {s t : State} (hinp : i ≠ .inp) (hout : i ≠ .out) (h : exec i s = .next t) :
    SamePorts s t := by
  rcases instr_kinds i with hk | rfl | rfl | rfl | rfl
  · exact (exec_stackInstr_frame hk h).1
  · rw [execSws_eq h]
    exact ⟨rfl, rfl, rfl, rfl⟩
  · exact execJmp_samePorts h
  · exact absurd rfl hinp
  · exact absurd rfl hout

/-- Settles O41: `?` keeps the output port, `.` keeps the input, and every other instruction keeps both. -/
theorem onlyInAndOutTouchPorts : Obligations.OnlyInAndOutTouchPorts := by
  intro i s t h
  by_cases hinp : i = .inp
  · subst hinp
    obtain ⟨-, haccepts, houtput⟩ := execInp_ports h
    exact ⟨fun _ => ⟨houtput, haccepts⟩, fun hne => absurd rfl hne, fun hne => absurd rfl hne⟩
  by_cases hout : i = .out
  · subst hout
    exact ⟨fun hne => absurd rfl hne, fun _ => execOut_input h, fun _ hne => absurd rfl hne⟩
  obtain ⟨hio, hinput, haccepts, houtput⟩ := exec_samePorts hinp hout h
  exact ⟨fun _ => ⟨houtput, haccepts⟩, fun _ => hinput, fun _ _ => hio⟩

end Sys2Proof.Machine

/-! # The shift family: the one-operand rule, and the value `0` and `1` push (R180, R181) -/

namespace Sys2Proof.Machine

open Sys2Proof.Rules

/-- An instruction that has the one-operand form over `f` follows the one-operand rule for an operation of the same
values: the result finds room, since a word was popped or the stack was empty. -/
theorem oneOperand_of_unary {i : Instr} {f op : Word → Word} (hop : ∀ a, f a = op a)
    (hexec : ∀ s, exec i s = (unary f s).outcome) : OneOperand i op := by
  obtain rfl : f = op := funext hop
  intro s hd
  rw [hexec]
  refine ⟨fun l a h => ?top, fun hs h => ?empty, fun hs h => ?short⟩
  case top => rw [unary_top f h, push_setStack (depthOk_room_below hd h), Result.outcome_ok]
  case empty =>
    have hroom : s.stackDepth ≠ some (s.stack s.active).length := by simpa [h] using depthOk_ne_zero hd
    rw [unary_empty f hs h, push_ok hroom, h, Result.outcome_ok, minusOne_eq_allOnes, List.nil_append]
  case short => exact ⟨_, by rw [unary_short f hs h, Result.outcome_ended], raise_status ..⟩

/-- Settles O17: `0` has the one-operand form over the shift that puts a clear bit in. -/
theorem shiftInZero : Obligations.ShiftInZero :=
  ⟨decode_encode .shl0, oneOperand_of_unary shiftIn_zero fun _ => rfl⟩

/-- Settles O18: `1` has the one-operand form over the shift that puts a set bit in. -/
theorem shiftInOne : Obligations.ShiftInOne :=
  ⟨decode_encode .shl1, oneOperand_of_unary shiftIn_one fun _ => rfl⟩

end Sys2Proof.Machine

/-! # The exceptions family: what stands after a raise, the halt, the trace record, and lenient mode (R192 to R207) -/

namespace Sys2Proof.Machine

open Sys2Proof.Rules

/-! ### What a raise leaves (R199, R200) -/

/-- The instructions of the arithmetic and logic family have the two-operand form. -/
theorem exec_eq_binary {i : Instr} (hi : i ∈ [Instr.xor, .or, .and, .add, .sub, .mul, .div]) :
    ∃ f, ∀ s, exec i s = (binary f s).outcome := by
  cases i
  case xor | or | and | add | sub | mul | div => exact ⟨_, fun _ => rfl⟩
  all_goals exact absurd hi (by decide)

/-- Settles O16: each fault is raised in the state that the pops, or the taking of the answer, have left. -/
theorem effectsBeforeFaultStay : Obligations.EffectsBeforeFaultStay := by
  refine ⟨fun i s b hi hs h => ?_, fun s l x => execXch_short_s1, fun s r rest => execInp_full⟩
  obtain ⟨f, hf⟩ := exec_eq_binary hi
  rw [hf, binary_short f hs (by simp [h]), Result.outcome_ended]

/-! ### The halt (R192) -/

/-- Every instruction but `@` keeps the status and the diagnostic sink, or raises one fault. -/
theorem exec_keptOrRaised {i : Instr} {s t : State} (hi : i ≠ .jmp) (h : exec i s = .next t) : KeptOrRaised s t := by
  rcases instr_kinds i with hk | rfl | rfl | rfl | rfl
  · exact (exec_stackInstr_frame hk h).2
  · rw [execSws_eq h]
    exact .inl ⟨rfl, rfl⟩
  · exact absurd rfl hi
  · exact execInp_keptOrRaised h
  · exact execOut_keptOrRaised h

/-- Of the instructions only `@` halts a machine. -/
theorem exec_halted_jmp {i : Instr} {s t : State} (h : exec i s = .next t) (hs : s.status ≠ .halted)
    (ht : t.status = .halted) : i = .jmp := by
  by_contra hi
  rcases exec_keptOrRaised hi h with ⟨hkept, -⟩ | ⟨f, hraised, -⟩
  · exact hs (hkept ▸ ht)
  · simp [ht] at hraised

/-- A `@` that halts leaves `pc` and popped −1: the top, or that of an empty lenient stack. -/
theorem execJmp_halted {s t : State} (h : exec .jmp s = .next t) (hs : s.status ≠ .halted) (ht : t.status = .halted) :
    t.pc = s.pc ∧
      ((∃ l, s.stack s.active = l ++ [BitVec.allOnes 64] ∧ t.stack s.active = l) ∨
        (s.strict = false ∧ s.stack s.active = [] ∧ t.stack s.active = [])) := by
  rcases execJmp_cases h with ⟨l, a, -, -, rfl⟩ | ⟨l, hl, rfl⟩ | ⟨hnil, hmode, rfl⟩ | ⟨-, -, rfl⟩
  · exact absurd (by simpa using ht) hs
  · exact ⟨by simp, .inl ⟨l, hl, by simp⟩⟩
  · exact ⟨rfl, .inr ⟨hmode, hnil, by simpa using hnil⟩⟩
  · simp at ht

/-- The end of the cycle does not halt: a machine that has halted there was halted by its instruction. -/
theorem cycleEnd_of_halted {p : Word} {u : State} (h : (cycleEnd p u).status = .halted) : cycleEnd p u = u :=
  cycleEnd_stopped (by simp [h]) (by simp [h])

/-- Settles O44: of a step's parts only the instruction halts, of the instructions only `@`, and `@` only on −1. -/
theorem haltOnlyByJumpMinusOne : Obligations.HaltOnlyByJumpMinusOne := by
  intro s t h ht
  obtain ⟨hs, ⟨i, u, -, -, hf, hu, rfl⟩ | ⟨b, -, -, -, rfl⟩ | ⟨u, -, hu, rfl⟩ | ⟨b, -, rfl⟩⟩ := step_next_cases h
  · have hend := cycleEnd_of_halted ht
    rw [hend] at ht ⊢
    obtain rfl := exec_halted_jmp hu (by simp [hs]) ht
    exact ⟨hf, by simpa using execJmp_halted hu (by simp [hs]) ht⟩
  · simp at ht
  · rw [cycleEnd_of_halted ht] at ht
    exact absurd (exec_halted_jmp hu (by simp [hs]) ht) (by decide)
  · rw [cycleEnd_of_halted ht] at ht
    simp [hs] at ht

/-! ### The trace record (R27, R205) -/

/-- Tracing is off, and the trace records on the diagnostic sink are those of `s`. -/
def UntracedSince (s u : State) : Prop := u.traceEn = false ∧ u.diag.filter isTrace = s.diag.filter isTrace

/-- A write of the state adds to the diagnostic sink the line of a fault at most. -/
theorem preserved_untracedSince (s : State) : Preserved (UntracedSince s) where
  setStack u k l h := by simpa [UntracedSince] using h
  raised u f h := by simpa [UntracedSince, isTrace] using h
  setActive _ _ h := h
  setPc _ _ h := h
  halted _ h := h
  await _ _ h := h
  takeInput _ _ _ _ h := h
  acceptOutput _ _ h := h

theorem untracedSince_traceOut (s : State) (i : Instr) (u : State) (h : UntracedSince s u) :
    UntracedSince s (traceOut i u) := by
  simpa [UntracedSince, traceOut_diag, h.1] using h

/-- Settles O45: with tracing on, what the instruction and the end of the cycle add comes after the record; with it
off, nothing but `traceOut` adds one. -/
theorem traceRecordFirst : Obligations.TraceRecordFirst := by
  refine ⟨fun s t i hen hio hf h => ?on, fun s t hen h => ?off⟩
  case on =>
    obtain ⟨u, hu, rfl⟩ := step_ran_fetched (step_next_cases h).1 hio hf h
    have hrecord : (traceOut i s).diag = s.diag ++ [.trace (s.traceRecord i)] := by simp [traceOut_diag, hen]
    exact hrecord ▸ (exec_streamsGrow hu).diag.trans (onlyDiagGrows_cycleEnd s.pc u).diag
  case off =>
    exact (step_preserves (preserved_untracedSince s) (untracedSince_traceOut s) ⟨hen, rfl⟩ h).2

/-! ### Lenient mode (R207) -/

/-- A machine in lenient mode, with unbounded stacks, that no fault has ended. -/
structure Unaborted (s : State) : Prop where
  lenient : s.strict = false
  unbounded : s.stackDepth = none
  unfaulted : ∀ f, s.status ≠ .faulted f

theorem Unaborted.setStack {s : State} (h : Unaborted s) (k : StackId) (l : List Word) : Unaborted (s.setStack k l) :=
  ⟨by simpa using h.lenient, by simpa using h.unbounded, by simpa using h.unfaulted⟩

/-- An unbounded stack always has room. -/
theorem Unaborted.room {s : State} (h : Unaborted s) (n : Nat) : s.stackDepth ≠ some n := by simp [h.unbounded]

/-- In lenient mode with unbounded stacks no pop and no push raises a fault (R55, R56). -/
theorem stackRule_unaborted : StackRule Unaborted fun _ => False where
  popped k s h := by
    rcases pop_cases k s with ⟨l, v, -, hp⟩ | ⟨-, -, hp⟩ | ⟨-, hs, -⟩
    · rw [hp]
      exact h.setStack k l
    · rw [hp]
      exact h
    · simp [h.lenient] at hs
  pushed k v s h := by
    rw [push_ok (h.room _)]
    exact h.setStack k _

theorem Unaborted.outWrite {s : State} (h : Unaborted s) (b : Byte) : Unaborted (outWrite b s) := by
  rcases outWrite_cases b s with ⟨-, hw⟩ | ⟨-, hw⟩ <;> rw [hw] <;> exact ⟨h.lenient, h.unbounded, h.unfaulted⟩

theorem Unaborted.traceOut {s : State} (h : Unaborted s) (i : Instr) : Unaborted (traceOut i s) :=
  ⟨by simpa using h.lenient, by simpa using h.unbounded, by simpa using h.unfaulted⟩

/-- No instruction raises a fault in lenient mode with unbounded stacks. -/
theorem Unaborted.exec {i : Instr} {s t : State} (h : Unaborted s) (he : exec i s = .next t) : Unaborted t := by
  rcases instr_kinds i with hk | rfl | rfl | rfl | rfl
  · exact (stackRule_unaborted.exec hk h he).resolve_right id
  · rw [execSws_eq he]
    exact ⟨h.lenient, h.unbounded, h.unfaulted⟩
  · rcases execJmp_cases he with ⟨l, a, -, -, rfl⟩ | ⟨l, -, rfl⟩ | ⟨-, -, rfl⟩ | ⟨-, hs, -⟩
    · obtain ⟨hs, hd, hf⟩ := h.setStack s.active l
      exact ⟨hs, hd, hf⟩
    · obtain ⟨hs, hd, -⟩ := h.setStack s.active l
      exact ⟨hs, hd, by simp⟩
    · exact ⟨h.lenient, h.unbounded, by simp⟩
    · simp [h.lenient] at hs
  · rcases execInp_cases he with ⟨-, rfl⟩ | ⟨r, rest, -, -, rfl⟩ | ⟨r, rest, -, hfull, -⟩
    · exact ⟨h.lenient, h.unbounded, h.unfaulted⟩
    · have htaken : Unaborted (s.takeInput rest) := ⟨h.lenient, h.unbounded, h.unfaulted⟩
      exact htaken.setStack _ _
    · exact absurd hfull (h.room _)
  · rcases execOut_cases he with ⟨l, a, -, rfl⟩ | ⟨-, -, rfl⟩ | ⟨-, hs, -⟩
    · exact (h.setStack _ _).outWrite _
    · exact h.outWrite _
    · simp [h.lenient] at hs

/-- In lenient mode the range check wraps and raises nothing (R29). -/
theorem Unaborted.cycleEnd {s : State} (h : Unaborted s) (p : Word) : Unaborted (cycleEnd p s) := by
  rcases cycleEnd_cases p s with ⟨-, -, hc⟩ | ⟨-, hc⟩ <;> rw [hc]
  · rcases advance_cases p s with ⟨-, ha⟩ | ⟨-, -, ha⟩ | ⟨-, hs, -⟩
    · rw [ha]
      exact ⟨h.lenient, h.unbounded, h.unfaulted⟩
    · rw [ha]
      exact ⟨h.lenient, h.unbounded, h.unfaulted⟩
    · simp [h.lenient] at hs
  · exact h

/-- The one fault left in lenient mode with unbounded stacks is that of a byte outside the alphabet. -/
theorem Unaborted.step {s t : State} (h : Unaborted s) (hfetch : ∀ b, fetch s ≠ .badByte b) (ht : step s = .next t) :
    Unaborted t := by
  obtain ⟨-, ⟨i, u, -, -, -, hu, rfl⟩ | ⟨b, -, -, hb, -⟩ | ⟨u, -, hu, rfl⟩ | ⟨b, -, rfl⟩⟩ := step_next_cases ht
  · exact ((h.traceOut i).exec hu).cycleEnd _
  · exact absurd hb (hfetch b)
  · exact (h.exec hu).cycleEnd _
  · exact (h.outWrite b).cycleEnd _

theorem decodeSymbol_isOk_of_mem : ∀ b ∈ alphabet, (decodeSymbol b).isOk = true := by decide

/-- The decoder rejects a byte by its own name, and only one outside the alphabet (R87). -/
theorem decodeSymbol_error {b c : Byte} (h : decodeSymbol b = .error (.notInAlphabet c)) : b = c ∧ b ∉ alphabet := by
  have hmem : b ∉ alphabet := fun hb => by simpa [h, Except.isOk, Except.toBool] using decodeSymbol_isOk_of_mem b hb
  rw [decodeSymbol_of_notMem hmem] at h
  injection h with h
  injection h with h
  exact ⟨h, hmem⟩

theorem opcodeIn_badByte {form : CodeForm} {n : Nat} {b c : Byte} (h : opcodeIn form n b = .badByte c) :
    form = .characters ∧ b = c ∧ b ∉ alphabet := by
  cases form with
  | packed => cases h
  | characters =>
    simp only [opcodeIn] at h
    split at h
    next => cases h
    next hdecode =>
      cases h
      exact ⟨rfl, decodeSymbol_error hdecode⟩

/-- A byte that the fetch rejects stands in character-form code, at `pc`, and is outside the alphabet (R87). -/
theorem fetch_badByte {s : State} {b : Byte} (h : fetch s = .badByte b) :
    s.codeForm = .characters ∧ Memory.read s.code s.pc.toNat = some b ∧ b ∉ alphabet := by
  unfold fetch fetchAt at h
  split_ifs at h
  split at h
  next c hread =>
    obtain ⟨hform, rfl, hmem⟩ := opcodeIn_badByte h
    rw [hform] at hread
    exact ⟨hform, hread, hmem⟩
  next => cases h

theorem ProgramOf.codeInAlphabet {s u : State} (h : ProgramOf s u) (hs : s.CodeInAlphabet) : u.CodeInAlphabet := by
  obtain ⟨⟨-, -, -, hform, -, -⟩, hcode⟩ := h
  rwa [State.CodeInAlphabet, hform, hcode]

/-- Code from the front end holds no byte that the fetch rejects (R207). -/
theorem fetch_ne_badByte {s : State} (h : s.CodeInAlphabet) (b : Byte) : fetch s ≠ .badByte b := by
  intro hf
  obtain ⟨hform, hread, hmem⟩ := fetch_badByte hf
  exact hmem (List.contains_iff_mem.mp (h hform _ _ hread))

/-- Settles O53: a step is made and raises no fault, so it leaves the machine running or halted by a `@` on −1; and it
writes neither the configuration nor the code. -/
theorem lenientNeverAborts : Obligations.LenientNeverAborts := by
  intro s hinv hcode hmode hdepth hs hlen
  obtain ⟨t, ht⟩ := runningMachineSteps s hinv hs hlen
  have hprog := step_programOf ht
  obtain ⟨htmode, htdepth, htfault⟩ :=
    Unaborted.step ⟨hmode, hdepth, by simp [hs]⟩ (fetch_ne_badByte hcode) ht
  refine ⟨t, ht, ?_, invariantKeptByStep s t hinv ht, hprog.codeInAlphabet hcode, htmode, htdepth,
    by rwa [hprog.codeLen_eq]⟩
  match hts : t.status with
  | .running => exact .inl rfl
  | .halted =>
    obtain ⟨hf, hpc, htop⟩ := haltOnlyByJumpMinusOne s t ht hts
    exact .inr ⟨rfl, hf, hpc, htop.imp_right And.right⟩
  | .faulted f => exact absurd hts (htfault f)

end Sys2Proof.Machine

/-! # Launch: when one succeeds, what it leaves, and that this meets the invariant -/

namespace Sys2Proof.Machine

open Sys2Proof.Rules

/-! ### What a launch answers (R10, R220, R221) -/

/-- A launch succeeds for non-empty code whose length a word can hold, with a capacity that is not 0, and there alone
(R10, R129, R221). -/
theorem launch_eq_ok_iff {p : LaunchParams} {form : CodeForm} {codeLen : Nat} {bytes : List Byte} {s : State} :
    launch p form codeLen bytes = .ok s ↔
      (codeLen ≠ 0 ∧ codeLen < 2 ^ 64 ∧ p.stackDepth ≠ some 0) ∧ s = launchState p form codeLen bytes := by
  have hwf : p.wellFormed = false ↔ p.stackDepth = some 0 := by simp [LaunchParams.wellFormed]
  unfold launch
  split_ifs with hzero hlong hdepth
  · exact iff_of_false nofun fun h => h.1.1 hzero
  · exact iff_of_false nofun fun h => absurd h.1.2.1 hlong.not_gt
  · exact iff_of_false nofun fun h => h.1.2.2 (hwf.mp hdepth)
  · rw [and_iff_right ⟨hzero, Nat.lt_of_not_le hlong, mt hwf.mpr hdepth⟩, Except.ok.injEq, eq_comm]

theorem launchedWith_launchState (p : LaunchParams) (form : CodeForm) (codeLen : Nat) (bytes : List Byte) :
    LaunchedWith p (launchState p form codeLen bytes) :=
  ⟨⟨rfl, rfl, rfl, rfl, rfl, rfl⟩, ⟨rfl, rfl, rfl, rfl, rfl⟩, rfl, rfl⟩

/-- In either form, a launch that the checks let pass gives the launch state, with the code and its length in place. -/
theorem launch_gives_launchState {p : LaunchParams} {form : CodeForm} {codeLen : Nat} {bytes : List Byte}
    (hzero : codeLen ≠ 0) (hlen : codeLen < 2 ^ 64) (hdepth : p.stackDepth ≠ some 0) :
    ∃ s, launch p form codeLen bytes = .ok s ∧ LaunchedWith p s ∧ s.codeForm = form ∧ s.codeLen.toNat = codeLen ∧
      ∀ a, Memory.read s.code a = bytes[a]? :=
  ⟨_, launch_eq_ok_iff.mpr ⟨⟨hzero, hlen, hdepth⟩, rfl⟩, launchedWith_launchState p form codeLen bytes, rfl,
    Nat.mod_eq_of_lt hlen, read_launchState p form codeLen bytes⟩

/-- Settles O47: non-empty code has a length other than 0 in either form, so the launch passes its checks. -/
theorem launchGivesResetState : Obligations.LaunchGivesResetState := by
  intro p img himg hdepth
  have hpos : 0 < img.length := List.length_pos_iff.mpr himg
  exact ⟨fun hlen => launch_gives_launchState (by omega) hlen hdepth,
    fun hlen => launch_gives_launchState hpos.ne' hlen hdepth⟩

/-- Settles O48: the empty list has length 0 in either form, and the step itself asks for code. -/
theorem emptyCodeRefused : Obligations.EmptyCodeRefused :=
  ⟨fun _ => ⟨rfl, rfl⟩, fun _ hs hio hl => step_refused_iff.mpr ⟨hs, hio, hl, rfl⟩⟩

/-! ### The invariant at launch (R26, R41, R53) -/

/-- A launch of as many bytes as `codeLen` opcodes take, in whole bytes, leaves the code loaded. -/
theorem codeLoaded_launchState {p : LaunchParams} {form : CodeForm} {codeLen : Nat} {bytes : List Byte}
    (hlen : codeLen < 2 ^ 64) (hbytes : codeBytes form codeLen = bytes.length)
    (heven : form = .packed → codeLen % 2 = 0) : (launchState p form codeLen bytes).CodeLoaded := by
  have hlength : (launchState p form codeLen bytes).codeLen.toNat = codeLen := Nat.mod_eq_of_lt hlen
  exact {
    canonical := Memory.load_wf 0 bytes
    exact := fun a => by rw [read_launchState, launchState_codeForm, hlength, hbytes, isSome_getElem?]
    evenPacked := by rwa [launchState_codeForm, hlength] }

/-- Empty stacks are within every capacity a launch accepts. -/
theorem depthOk_launchState {p : LaunchParams} (hdepth : p.stackDepth ≠ some 0) (form : CodeForm) (codeLen : Nat)
    (bytes : List Byte) : (launchState p form codeLen bytes).DepthOk := by
  intro d hd
  have hpos : d ≠ 0 := by rintro rfl; exact hdepth hd
  exact ⟨Nat.one_le_iff_ne_zero.mpr hpos, Nat.zero_le d, Nat.zero_le d⟩

/-- A successful launch of bytes that hold exactly `codeLen` opcodes gives a machine that meets the invariant, with
`pc` inside the code. -/
theorem inv_of_launch {p : LaunchParams} {form : CodeForm} {codeLen : Nat} {bytes : List Byte} {s : State}
    (h : launch p form codeLen bytes = .ok s) (hbytes : codeBytes form codeLen = bytes.length)
    (heven : form = .packed → codeLen % 2 = 0) : s.Inv ∧ s.pc < s.codeLen := by
  obtain ⟨⟨hzero, hlen, hdepth⟩, rfl⟩ := launch_eq_ok_iff.mp h
  have hpc : (launchState p form codeLen bytes).pc < (launchState p form codeLen bytes).codeLen :=
    (index_inside_launchState (Nat.pos_of_ne_zero hzero) hlen).1
  exact ⟨{
    code := codeLoaded_launchState hlen hbytes heven
    depth := depthOk_launchState hdepth form codeLen bytes
    pcInCode := fun _ _ => hpc
    wait := fun r hr => by cases hr }, hpc⟩

/-- Settles O50: `N` bytes hold exactly `2N` packed opcodes, and `n` characters exactly `n`. -/
theorem invariantAtLaunch : Obligations.InvariantAtLaunch := by
  intro p bytes s h
  rcases h with hpacked | hchars
  · exact inv_of_launch hpacked (Nat.mul_div_cancel_left _ Nat.two_pos) fun _ => Nat.mul_mod_right 2 _
  · exact inv_of_launch hchars rfl (by simp)

end Sys2Proof.Machine
